-- ==== Sys2Proof/Word.lean ====
section
/-! DEFINITION. The word types of MFCE (spec/00_scope.md R6, R7, R10): every architectural value is an
unsigned integer of a stated width. -/

namespace Sys2Proof

/-- A 256-bit field register, modulus or buffer value (R6, R21). -/
abbrev Elem := BitVec 256

/-- One limb, one host data word, one command word (R6, R7, R61, R90). -/
abbrev Word32 := BitVec 32

/-- One byte of `DBUF` (R42). -/
abbrev Byte := BitVec 8

end Sys2Proof
end

