-- ==== Sys2Proof/Syntax.lean ====
section
/-! DEFINITION. The command set of MFCE, whole: one constructor per row of spec/opcode_table.json
(spec/30_encoding.md R96). -/

namespace Sys2Proof

/-- A register number: `F0` to `F15` (spec/10_state.md R21), or the base of a register group (R25, R26). -/
abbrev Reg := Fin 16

/-- The context select of a field command (R91, R94): bank P (field prime) or bank N (curve order). -/
inductive Ctx where
  /-- `ctx = 0`: the field prime. -/
  | p
  /-- `ctx = 1`: the curve order. -/
  | n
deriving DecidableEq, Repr

/-- The condition codes of CMOV (R97); codes 10 to 15 have no constructor, they are illegal. -/
inductive Cond where
  | never
  | always
  | cy
  | ncy
  | bw
  | nbw
  | t
  | nt
  | ge
  | lt
deriving DecidableEq, Repr

/-- The 21 commands (R96). Operands stand in the assembler's order, destination first (R104). -/
inductive Instr where
  /-- NOP (R200). -/
  | nop
  /-- SETSMALL `Fd, imm16` (R121). -/
  | setsmall (rd : Reg) (imm16 : BitVec 16)
  /-- ADD `Fd, Fa, Fb` (R122). -/
  | add (rd ra rb : Reg)
  /-- SUB `Fd, Fa, Fb` (R123). -/
  | sub (rd ra rb : Reg)
  /-- CMOV `Fd, Fa, cond` (R124). -/
  | cmov (rd ra : Reg) (cond : Cond)
  /-- ISZERO `Fa` (R126). -/
  | iszero (ra : Reg)
  /-- EQ `Fa, Fb` (R127). -/
  | eq (ra rb : Reg)
  /-- FROMBYTES `Fd, ctx` (R140). -/
  | frombytes (rd : Reg) (ctx : Ctx)
  /-- TOBYTES `Fa, ctx` (R141). -/
  | tobytes (ra : Reg) (ctx : Ctx)
  /-- MONTMUL `Fd, Fa, Fb, ctx` (R143). -/
  | montmul (rd ra rb : Reg) (ctx : Ctx)
  /-- TOMONT `Fd, Fa, ctx` (R147). -/
  | tomont (rd ra : Reg) (ctx : Ctx)
  /-- FROMMONT `Fd, Fa, ctx` (R148). -/
  | frommont (rd ra : Reg) (ctx : Ctx)
  /-- MODADD `Fd, Fa, Fb, ctx` (R151). -/
  | modadd (rd ra rb : Reg) (ctx : Ctx)
  /-- MODSUB `Fd, Fa, Fb, ctx` (R153). -/
  | modsub (rd ra rb : Reg) (ctx : Ctx)
  /-- FINV `Fd, Fa, ctx` (R155). -/
  | finv (rd ra : Reg) (ctx : Ctx)
  /-- PDBL `Fd, Fa`: both triples (R173). -/
  | pdbl (rd ra : Reg)
  /-- PADD `Fd, Fa, Fb`: all triples (R176). -/
  | padd (rd ra rb : Reg)
  /-- TOAFFINE `Fd, Fa`: pair from triple (R179). -/
  | toaffine (rd ra : Reg)
  /-- SCALARMUL `Fd, Fa, Fb`: pair from scalar register and base-point pair (R182). -/
  | scalarmul (rd ra rb : Reg)
  /-- LOCK (R201). -/
  | lock
  /-- ZEROIZE (R202). -/
  | zeroize
deriving DecidableEq, Repr

end Sys2Proof
end

