-- ==== Sys2Proof/WellFormed.lean ====
section
/-! DEFINITION. Well-formedness of a command: the group bounds of spec/30_encoding.md R100. Every other
condition of R98 is a property of the word, not of the command, and is checked in Decode.lean. -/

namespace Sys2Proof

/-- A legal base of a triple: 0 to 13 (R25, R100). -/
def Reg.tripleBase (r : Reg) : Bool := decide (r.val ≤ 13)

/-- A legal base of a pair: 0 to 14 (R26, R100). -/
def Reg.pairBase (r : Reg) : Bool := decide (r.val ≤ 14)

/-- The group bounds of each command (R100). -/
def Instr.wf : Instr → Bool
  | .nop => true
  | .setsmall _ _ => true
  | .add _ _ _ => true
  | .sub _ _ _ => true
  | .cmov _ _ _ => true
  | .iszero _ => true
  | .eq _ _ => true
  | .frombytes _ _ => true
  | .tobytes _ _ => true
  | .montmul _ _ _ _ => true
  | .tomont _ _ _ => true
  | .frommont _ _ _ => true
  | .modadd _ _ _ _ => true
  | .modsub _ _ _ _ => true
  | .finv _ _ _ => true
  | .pdbl rd ra => Reg.tripleBase rd && Reg.tripleBase ra
  | .padd rd ra rb => Reg.tripleBase rd && Reg.tripleBase ra && Reg.tripleBase rb
  | .toaffine rd ra => Reg.pairBase rd && Reg.tripleBase ra
  | .scalarmul rd _ rb => Reg.pairBase rd && Reg.pairBase rb
  | .lock => true
  | .zeroize => true

end Sys2Proof
end

