-- ==== Sys2Proof/Decode.lean ====
section
/-! DEFINITION. Decoding and encoding of the 32-bit command word (spec/30_encoding.md R90 to R101). -/

namespace Sys2Proof

/-! ### Fields (R91, R92) -/

/-- `op`, bits 31:24. -/
def opField (w : Word32) : BitVec 8 := w.extractLsb' 24 8

/-- `rd`, bits 23:20. -/
def rdField (w : Word32) : Reg := (w.extractLsb' 20 4).toFin

/-- `ra`, bits 19:16. -/
def raField (w : Word32) : Reg := (w.extractLsb' 16 4).toFin

/-- `rb`, bits 15:12. -/
def rbField (w : Word32) : Reg := (w.extractLsb' 12 4).toFin

/-- `cond`, bits 11:8. -/
def condField (w : Word32) : BitVec 4 := w.extractLsb' 8 4

/-- `ctx`, bit 7. -/
def ctxField (w : Word32) : BitVec 1 := w.extractLsb' 7 1

/-- `imm16`, bits 15:0 of format I. -/
def immField (w : Word32) : BitVec 16 := w.extractLsb' 0 16

/-! ### Codes of conditions and contexts (R91, R97) -/

/-- The condition code of a condition (R97). -/
def Cond.code : Cond → BitVec 4
  | .never => 0
  | .always => 1
  | .cy => 2
  | .ncy => 3
  | .bw => 4
  | .nbw => 5
  | .t => 6
  | .nt => 7
  | .ge => 8
  | .lt => 9

/-- The condition a code names; codes 10 to 15 are reserved (R97). -/
def Cond.ofCode (c : BitVec 4) : Option Cond :=
  match c.toNat with
  | 0 => some .never
  | 1 => some .always
  | 2 => some .cy
  | 3 => some .ncy
  | 4 => some .bw
  | 5 => some .nbw
  | 6 => some .t
  | 7 => some .nt
  | 8 => some .ge
  | 9 => some .lt
  | _ => none

/-- The `ctx` bit of a context (R91). -/
def Ctx.bit : Ctx → BitVec 1
  | .p => 0
  | .n => 1

/-- The context a `ctx` bit selects (R91). -/
def Ctx.ofBit (b : BitVec 1) : Ctx := if b = 0 then .p else .n

/-! ### Decoding -/

/-- Why a word is illegal: the four cases of R98. -/
inductive DecodeError where
  /-- (a) the opcode is unassigned (R96). -/
  | unassignedOpcode (op : BitVec 8)
  /-- (b) a field the command does not use is not zero. -/
  | nonzeroUnusedField
  /-- (c) a CMOV condition code of 10 or more. -/
  | reservedCondition
  /-- (d) a group operand that runs past F15 (R100). -/
  | groupBound
deriving DecidableEq, Repr

/-- `d` if the must-be-zero bits `zeros` of `w` are all zero (R98 (b)). -/
def withZeros (w zeros : Word32) (d : Except DecodeError Instr) : Except DecodeError Instr :=
  if w &&& zeros = 0 then d else .error .nonzeroUnusedField

/-- `i` if its group operands stay inside the register file (R98 (d), R100). -/
def withBounds (i : Instr) : Except DecodeError Instr :=
  if i.wf then .ok i else .error .groupBound

/-- CMOV with its condition code (R98 (c)). -/
def withCond (rd ra : Reg) (code : BitVec 4) : Except DecodeError Instr :=
  match Cond.ofCode code with
  | some c => .ok (.cmov rd ra c)
  | none => .error .reservedCondition

/-- The decoder: the command of a word, or the name of what makes it illegal (R96, R98). The second argument of
`withZeros` is the part of R96's mask below the opcode: the bits the command does not use. -/
def decode (w : Word32) : Except DecodeError Instr :=
  match (opField w).toNat with
  | 0x00 => withZeros w 0x00FFFFFF (.ok .nop)
  | 0x01 => withZeros w 0x000F0000 (.ok (.setsmall (rdField w) (immField w)))
  | 0x02 => withZeros w 0x00000FFF (.ok (.add (rdField w) (raField w) (rbField w)))
  | 0x03 => withZeros w 0x00000FFF (.ok (.sub (rdField w) (raField w) (rbField w)))
  | 0x04 => withZeros w 0x0000F0FF (withCond (rdField w) (raField w) (condField w))
  | 0x05 => withZeros w 0x00F0FFFF (.ok (.iszero (raField w)))
  | 0x06 => withZeros w 0x00F00FFF (.ok (.eq (raField w) (rbField w)))
  | 0x08 => withZeros w 0x000FFF7F (.ok (.frombytes (rdField w) (.ofBit (ctxField w))))
  | 0x09 => withZeros w 0x00F0FF7F (.ok (.tobytes (raField w) (.ofBit (ctxField w))))
  | 0x0A => withZeros w 0x00000F7F (.ok (.montmul (rdField w) (raField w) (rbField w) (.ofBit (ctxField w))))
  | 0x0B => withZeros w 0x0000FF7F (.ok (.tomont (rdField w) (raField w) (.ofBit (ctxField w))))
  | 0x0C => withZeros w 0x0000FF7F (.ok (.frommont (rdField w) (raField w) (.ofBit (ctxField w))))
  | 0x0D => withZeros w 0x00000F7F (.ok (.modadd (rdField w) (raField w) (rbField w) (.ofBit (ctxField w))))
  | 0x0E => withZeros w 0x00000F7F (.ok (.modsub (rdField w) (raField w) (rbField w) (.ofBit (ctxField w))))
  | 0x0F => withZeros w 0x0000FF7F (.ok (.finv (rdField w) (raField w) (.ofBit (ctxField w))))
  | 0x10 => withZeros w 0x0000FFFF (withBounds (.pdbl (rdField w) (raField w)))
  | 0x11 => withZeros w 0x00000FFF (withBounds (.padd (rdField w) (raField w) (rbField w)))
  | 0x12 => withZeros w 0x0000FFFF (withBounds (.toaffine (rdField w) (raField w)))
  | 0x13 => withZeros w 0x00000FFF (withBounds (.scalarmul (rdField w) (raField w) (rbField w)))
  | 0x1E => withZeros w 0x00FFFFFF (.ok .lock)
  | 0x1F => withZeros w 0x00FFFFFF (.ok .zeroize)
  | _ => .error (.unassignedOpcode (opField w))

/-- The decoder on a word numbered as spec/opcode_table.json numbers its bits; a command is one 32-bit word that the
port transfers as one value (R67, R90), so no byte order arises. -/
def decodeTableWord (nbits w : Nat) : Option Instr :=
  match decode (BitVec.ofNat 32 (w % 2 ^ nbits)) with
  | .ok i => some i
  | .error _ => none

/-! ### Encoding -/

/-- Format R (R91). -/
def formR (op : BitVec 8) (rd ra rb : Reg) (cond : BitVec 4) (ctx : BitVec 1) : Word32 :=
  op ++ BitVec.ofFin (w := 4) rd ++ BitVec.ofFin (w := 4) ra ++ BitVec.ofFin (w := 4) rb ++ cond ++ ctx ++ 0#7

/-- Format I (R92). -/
def formI (op : BitVec 8) (rd : Reg) (imm16 : BitVec 16) : Word32 :=
  op ++ BitVec.ofFin (w := 4) rd ++ 0#4 ++ imm16

/-- The command word of a command (R91, R92, R96). -/
def encode : Instr → Word32
  | .nop => formR 0x00 0 0 0 0 0
  | .setsmall rd imm16 => formI 0x01 rd imm16
  | .add rd ra rb => formR 0x02 rd ra rb 0 0
  | .sub rd ra rb => formR 0x03 rd ra rb 0 0
  | .cmov rd ra cond => formR 0x04 rd ra 0 cond.code 0
  | .iszero ra => formR 0x05 0 ra 0 0 0
  | .eq ra rb => formR 0x06 0 ra rb 0 0
  | .frombytes rd ctx => formR 0x08 rd 0 0 0 ctx.bit
  | .tobytes ra ctx => formR 0x09 0 ra 0 0 ctx.bit
  | .montmul rd ra rb ctx => formR 0x0A rd ra rb 0 ctx.bit
  | .tomont rd ra ctx => formR 0x0B rd ra 0 0 ctx.bit
  | .frommont rd ra ctx => formR 0x0C rd ra 0 0 ctx.bit
  | .modadd rd ra rb ctx => formR 0x0D rd ra rb 0 ctx.bit
  | .modsub rd ra rb ctx => formR 0x0E rd ra rb 0 ctx.bit
  | .finv rd ra ctx => formR 0x0F rd ra 0 0 ctx.bit
  | .pdbl rd ra => formR 0x10 rd ra 0 0 0
  | .padd rd ra rb => formR 0x11 rd ra rb 0 0
  | .toaffine rd ra => formR 0x12 rd ra 0 0 0
  | .scalarmul rd ra rb => formR 0x13 rd ra rb 0 0
  | .lock => formR 0x1E 0 0 0 0 0
  | .zeroize => formR 0x1F 0 0 0 0 0

end Sys2Proof
end

