-- ==== Sys2Proof/Config.lean ====
section
/-! DEFINITION. The fixed parameters of MFCE (spec/00_scope.md R6, R7; spec/20_memory.md R60).
The spec's open parameters `CTX_P` and `CTX_N` (R8, spec/92_eei_decisions.md) are no constants here: they are
ordinary state that the host writes before LOCK. The spec leaves no result of a command open
(spec/93_implementation_defined.md: "No behaviour of MFCE is `stuck` or `any value`"), so there is no free value. -/

namespace Sys2Proof.Config

/-- The limb base `b = 2^32` (R6). -/
abbrev limbBase : Nat := 2 ^ 32

/-- Limbs per element (R6). -/
abbrev limbCount : Nat := 8

/-- The Montgomery radix `R = 2^256` (R6). -/
abbrev radix : Nat := 2 ^ 256

/-- The number of bits of an element; the trip count of the inverter and of the ladder (R6, R154, R181). -/
abbrev elemBits : Nat := 256

/-- The size in bytes of the host window: 256 words (R60). -/
abbrev windowBytes : Nat := 0x400

end Sys2Proof.Config
end

