-- ==== Sys2Proof/Machine/State.lean ====
section
/-! DEFINITION. The architectural state of MFCE as plain data (spec/10_state.md R20, R50), the host's accesses
(spec/20_memory.md R61, spec/70_reset_and_hazards.md R240), the registers of the host window (R64), the result codes
(spec/60_exceptions.md R211) and the reasons a step can stop. -/

namespace Sys2Proof.Machine

open Sys2Proof

/-- The result codes of `STATUS.ERR` (R37, R211). Codes 7 to 15 never occur (R37, V5). -/
inductive ErrCode where
  /-- 0: the command completed. -/
  | ok
  /-- 1: FROMBYTES of a value not below the modulus (R140). -/
  | outOfRange
  /-- 2: FINV of zero (R155). -/
  | curveOperationFailure
  /-- 3: reserved for the host's software, never written by MFCE (R213). -/
  | verifierMismatch
  /-- 4: reserved for the host's software, never written by MFCE (R213). -/
  | resourceFailure
  /-- 5: a malformed command word (R99). -/
  | illegalCommand
  /-- 6: a context command while unlocked (R101). -/
  | notConfigured
deriving DecidableEq, Repr

/-- A modulus context: the three fields both banks have (R40). -/
structure Bank where
  /-- `M`, the modulus. -/
  m : Elem
  /-- `R2`, intended `2^512 mod M`. -/
  r2 : Elem
  /-- `M0INV`, intended `(-M⁻¹) mod 2^32`. -/
  m0inv : Word32
deriving DecidableEq, Repr

/-- A Jacobian point as held in a register triple (R25). -/
structure Triple where
  x : Elem
  y : Elem
  z : Elem
deriving DecidableEq, Repr

/-- An affine point as held in a register pair (R26). -/
structure Pair where
  x : Elem
  y : Elem
deriving DecidableEq, Repr

/-- One action of the host (R9, R61, R240). The width in bits and the byte offset are free, so that accesses that are
no MFCE accesses (R61) can be written down and refused. -/
inductive HostAction where
  /-- `HostRead(off)` of the given width. -/
  | read (bits off : Nat)
  /-- `HostWrite(off, v)` of the given width. -/
  | write (bits off : Nat) (v : Word32)
  /-- `Reset` (R240). -/
  | reset
deriving DecidableEq, Repr

/-- The registers of the host window (R64). -/
inductive PortReg where
  | cmd
  | status
  | flags
  /-- `DBUF` word `w`. -/
  | dbuf (w : Fin 8)
  /-- limb `j` of `CTX[c].M`. -/
  | ctxM (c : Ctx) (j : Fin 8)
  /-- limb `j` of `CTX[c].R2`. -/
  | ctxR2 (c : Ctx) (j : Fin 8)
  /-- `CTX[c].M0INV`. -/
  | ctxM0inv (c : Ctx)
  /-- limb `j` of `CTX[0].A`. -/
  | ctxA (j : Fin 8)
  /-- limb `j` of `F[i]`. -/
  | freg (i : Reg) (j : Fin 8)
  /-- any other offset of the window (R65). -/
  | reserved
deriving DecidableEq, Repr

/-- The state of one engine (R20), and the two fields of the model's own that stand for its host: the accesses the
host has yet to perform and the values its reads have returned (DESIGN CHOICE, log entries 1 and 2). -/
structure State where
  /-- The field registers `F[0..15]` (R21). -/
  f : Vector Elem 16
  /-- Flag `CY` (R31). -/
  cy : Bool
  /-- Flag `BW` (R32). -/
  bw : Bool
  /-- Flag `T` (R33). -/
  tf : Bool
  /-- Flag `INF` (R34). -/
  inf : Bool
  /-- `STATUS.LOCKED` (R38). -/
  locked : Bool
  /-- `STATUS.ERR` (R37). -/
  err : ErrCode
  /-- `DBUF[0..31]` (R42). -/
  dbuf : Vector Byte 32
  /-- Bank P: `CTX[0].M`, `.R2`, `.M0INV` (R40). -/
  ctxP : Bank
  /-- `CTX[0].A`, which bank N does not have (R40). -/
  ctxA : Elem
  /-- Bank N: `CTX[1].M`, `.R2`, `.M0INV` (R40). -/
  ctxN : Bank
  /-- The host's accesses not yet performed, first one first (R72; log entry 1). -/
  pending : List HostAction
  /-- The values `HostRead` has returned, latest first (R62; log entry 2). -/
  replies : List Word32
deriving DecidableEq, Repr

/-- MFCE has no fault: it raises no exception, takes no trap, and is never stuck (R210, R221, R259). The type is
empty, so that no step can end in one (safe: there is nothing to raise). -/
inductive Fault where
deriving DecidableEq, Repr

/-- Why the model gives an action no meaning. -/
inductive Refusal where
  /-- An instruction that has no meaning yet; raised by an arm of `exec` only. No arm raises it (safe). -/
  | notModelled (mnemonic : String)
  /-- A host access that is not 32 bits wide; raised by the port (R61, R68: "a model refuses them"; safe). -/
  | notWordAccess (bits : Nat)
  /-- A host access whose offset is no multiple of 4; raised by the port (R61, R68; safe). -/
  | misalignedAccess (off : Nat)
  /-- A host access outside the 1 KiB window; raised by the port (R61; safe). -/
  | outsideWindow (off : Nat)
deriving DecidableEq, Repr

/-- An all-zero bank (R50). -/
def Bank.zero : Bank := { m := 0, r2 := 0, m0inv := 0 }

/-- The machine right after reset: every bit of architectural state is 0 (R50, R240); no host access is pending and
none has returned a value (DESIGN CHOICE, log entries 1 and 2). -/
def State.reset : State :=
  { f := Vector.replicate 16 0
    cy := false
    bw := false
    tf := false
    inf := false
    locked := false
    err := .ok
    dbuf := Vector.replicate 32 0
    ctxP := Bank.zero
    ctxA := 0
    ctxN := Bank.zero
    pending := []
    replies := [] }

end Sys2Proof.Machine
end

