-- ==== Sys2Proof/Machine/Ops.lean ====
section
/-! DEFINITION. The named operations over registers, `DBUF`, context banks and the result code
(spec/10_state.md, spec/20_memory.md R63, R66, spec/60_exceptions.md R210). MFCE takes no exception; the one shared
operation that stands in its place is `failWith` (R210, R221), and nothing returns from it (R222). -/

namespace Sys2Proof.Machine

open Sys2Proof

/-! ### Field registers (R12, R21, R103) -/

/-- `F[r]`. -/
def State.getF (s : State) (r : Reg) : Elem := s.f[r.val]

/-- `F[r] <- v`. -/
def State.setF (s : State) (r : Reg) (v : Elem) : State := { s with f := s.f.set r.val v }

/-! ### Limbs (R11, R63, R66 (1)) -/

/-- `limb(v, j) = v[32j+31 : 32j]` (R11). -/
def limb (v : Elem) (j : Fin 8) : Word32 := v.extractLsb' (32 * j.val) 32

/-- "limb j of X <- v", that is `X - limb(X,j)·2^(32j) + v·2^(32j)` (R63). -/
def setLimb (x : Elem) (j : Fin 8) (v : Word32) : Elem :=
  x - (limb x j).setWidth 256 <<< (32 * j.val) + v.setWidth 256 <<< (32 * j.val)

/-! ### The byte buffer (R12, R42, R66 (2) and (3)) -/

/-- `BE32(DBUF)`: byte 0 is the most significant (R12). -/
def be32 (d : Vector Byte 32) : Elem := BitVec.ofNat 256 (d.toList.foldl (fun a b => a * 256 + b.toNat) 0)

/-- The 32 big-endian bytes of `v`: `DBUF[k] = v[8(31-k)+7 : 8(31-k)]` (R141). -/
def toBe32 (v : Elem) : Vector Byte 32 := Vector.ofFn fun k => v.extractLsb' (8 * (31 - k.val)) 8

/-- The host's view of `DBUF` word `w`: `DBUF[4w]` in bits 7:0, `DBUF[4w+3]` in bits 31:24 (R62, R66 (3)). -/
def dbufWord (d : Vector Byte 32) (w : Fin 8) : Word32 :=
  d[4 * w.val + 3] ++ d[4 * w.val + 2] ++ d[4 * w.val + 1] ++ d[4 * w.val]

/-- `DBUF[4w+k] <- v[8k+7 : 8k]` for `k = 0..3` (R63). -/
def setDbufWord (d : Vector Byte 32) (w : Fin 8) (v : Word32) : Vector Byte 32 :=
  (((d.set (4 * w.val) (v.extractLsb' 0 8)).set (4 * w.val + 1) (v.extractLsb' 8 8)).set (4 * w.val + 2)
    (v.extractLsb' 16 8)).set (4 * w.val + 3) (v.extractLsb' 24 8)

/-! ### Context banks (R12, R40, R41) -/

/-- `CTX[c]`. -/
def State.bank (s : State) : Ctx → Bank
  | .p => s.ctxP
  | .n => s.ctxN

/-- Replace `CTX[c]`. -/
def State.setBank (s : State) (c : Ctx) (b : Bank) : State :=
  match c with
  | .p => { s with ctxP := b }
  | .n => { s with ctxN := b }

/-! ### Result codes (R37, R102, R210, R211) -/

/-- The number of a result code (R211). -/
def ErrCode.code : ErrCode → BitVec 4
  | .ok => 0
  | .outOfRange => 1
  | .curveOperationFailure => 2
  | .verifierMismatch => 3
  | .resourceFailure => 4
  | .illegalCommand => 5
  | .notConfigured => 6

/-- The command ends with result code `k` and makes no further change (R12 `fail`, R210). -/
def failWith (k : ErrCode) (s : State) : Host.Outcome State Fault Refusal := .next { s with err := k }

/-- The command completes: `ERR <- 0` (R102). -/
def complete (s : State) : Host.Outcome State Fault Refusal := .next { s with err := .ok }

/-- Step 2 of R101: a command that uses a context runs only when locked, else fails with `NotConfigured`. -/
def whenLocked (s : State) (run : Host.Outcome State Fault Refusal) : Host.Outcome State Fault Refusal :=
  if s.locked then run else failWith .notConfigured s

/-- A command whose group operands meet the bounds `ok` runs; outside them it is illegal (R98 (d), R99, R100).
Step 1 of R101, so it stands before `whenLocked`. -/
def whenInBounds (ok : Bool) (s : State) (run : Host.Outcome State Fault Refusal) : Host.Outcome State Fault Refusal :=
  if ok then run else failWith .illegalCommand s

/-! ### Reset (R240, R241) -/

/-- The state after the host's `Reset`: every bit of the engine 0. The host's own accesses to come and the values it
has read are not the engine's and stay (log entry 5). -/
def State.afterReset (s : State) : State := { State.reset with pending := s.pending, replies := s.replies }

end Sys2Proof.Machine
end

