-- ==== Sys2Proof/Machine/Flags.lean ====
section
/-! DEFINITION. Flag computations, CMOV's conditions, and the packing of `FLAGS` and `STATUS`
(spec/10_state.md R30 to R36, spec/30_encoding.md R97). -/

namespace Sys2Proof.Machine

open Sys2Proof

/-- `CY` of an addition: the carry out of bit 255 (R31, R122). -/
def carryOut (a b : Elem) : Bool := decide (2 ^ 256 ≤ a.toNat + b.toNat)

/-- `BW` of a subtraction: 1 iff minuend below subtrahend (R32, R123). -/
def borrowOut (a b : Elem) : Bool := decide (a.toNat < b.toNat)

/-- `T` of ISZERO, and `INF` of a `Z` coordinate (R126, R173, R176, R178). -/
def isZeroElem (a : Elem) : Bool := decide (a = 0)

/-- `T` of EQ (R127). -/
def equalElems (a b : Elem) : Bool := decide (a = b)

/-- The value of a condition on the flags as they stand before the command (R97). -/
def condHolds (c : Cond) (s : State) : Bool :=
  match c with
  | .never => false
  | .always => true
  | .cy => s.cy
  | .ncy => !s.cy
  | .bw => s.bw
  | .nbw => !s.bw
  | .t => s.tf
  | .nt => !s.tf
  | .ge => s.cy || !s.bw
  | .lt => !s.cy && s.bw

/-- `FLAGS`: bit 0 `CY`, bit 1 `BW`, bit 2 `T`, bit 3 `INF`, others 0 (R30, R62). -/
def flagsWord (s : State) : Word32 :=
  0#28 ++ BitVec.ofBool s.inf ++ BitVec.ofBool s.tf ++ BitVec.ofBool s.bw ++ BitVec.ofBool s.cy

/-- `STATUS`: bit 0 `LOCKED`, bits 7:4 `ERR`, others 0 (R36, R62). -/
def statusWord (s : State) : Word32 := 0#24 ++ s.err.code ++ 0#3 ++ BitVec.ofBool s.locked

end Sys2Proof.Machine
end

