-- ==== Sys2Proof/Machine/Operands.lean ====
section
/-! DEFINITION. The operand forms of commands (spec/30_encoding.md R93, R94): the immediate, register pairs and
register triples. A single register is read and written by `State.getF` and `State.setF` of Ops.lean. The group bounds
of R100 are `Instr.wf` of WellFormed.lean. -/

namespace Sys2Proof.Machine

open Sys2Proof

/-- `zext_256(imm16)` (R93). -/
def immValue (imm16 : BitVec 16) : Elem := imm16.setWidth 256

/-! ### Register groups (R25, R26). Under the bounds of R100 no register number wraps around. -/

/-- The triple at base `r`. -/
def State.getTriple (s : State) (r : Reg) : Triple :=
  { x := s.getF r, y := s.getF (r + 1), z := s.getF (r + 2) }

/-- Write the triple at base `r`. -/
def State.setTriple (s : State) (r : Reg) (p : Triple) : State :=
  ((s.setF r p.x).setF (r + 1) p.y).setF (r + 2) p.z

/-- The pair at base `r`. -/
def State.getPair (s : State) (r : Reg) : Pair := { x := s.getF r, y := s.getF (r + 1) }

/-- Write the pair at base `r`. -/
def State.setPair (s : State) (r : Reg) (p : Pair) : State := (s.setF r p.x).setF (r + 1) p.y

end Sys2Proof.Machine
end

