-- ==== Sys2Proof/Machine/Basic.lean ====
section
/-! DEFINITION. The basic 256-bit commands (spec/40_field_basic.md R120 to R127). They use no context and run locked
or unlocked (R120, R243). -/

namespace Sys2Proof.Machine

open Sys2Proof

/-- SETSMALL (R121). -/
def execSetsmall (rd : Reg) (imm16 : BitVec 16) (s : State) : Host.Outcome State Fault Refusal :=
  complete (s.setF rd (immValue imm16))

/-- ADD (R122). -/
def execAdd (rd ra rb : Reg) (s : State) : Host.Outcome State Fault Refusal :=
  complete { s.setF rd (s.getF ra + s.getF rb) with cy := carryOut (s.getF ra) (s.getF rb) }

/-- SUB (R123). -/
def execSub (rd ra rb : Reg) (s : State) : Host.Outcome State Fault Refusal :=
  complete { s.setF rd (s.getF ra - s.getF rb) with bw := borrowOut (s.getF ra) (s.getF rb) }

/-- CMOV (R124). -/
def execCmov (rd ra : Reg) (cond : Cond) (s : State) : Host.Outcome State Fault Refusal :=
  complete (s.setF rd (if condHolds cond s then s.getF ra else s.getF rd))

/-- ISZERO (R126). -/
def execIszero (ra : Reg) (s : State) : Host.Outcome State Fault Refusal :=
  complete { s with tf := isZeroElem (s.getF ra) }

/-- EQ (R127). -/
def execEq (ra rb : Reg) (s : State) : Host.Outcome State Fault Refusal :=
  complete { s with tf := equalElems (s.getF ra) (s.getF rb) }

end Sys2Proof.Machine
end

