-- ==== Sys2Proof/Machine/MontArith.lean ====
section
/-! DEFINITION. The field functions `montmul`, `one`, `fadd`, `fsub`, `finv` (spec/41_field_montgomery.md R142, R146,
R150, R152, R154) and the Montgomery form `[x]` (R149), total on every operand and every content of the bank (R144). -/

namespace Sys2Proof.Machine

open Sys2Proof

/-- One iteration of `montmul`'s loop on unbounded integers: the digit `u`, then accumulate and shift one limb (R142).
`x`, `y`, `m` are the operands and the modulus, `m'` is `M0INV`, `A` the accumulator, `i` the limb. -/
def montStep (x y m m' A i : Nat) : Nat :=
  let xi := x / Config.limbBase ^ i % Config.limbBase
  let u := (A % Config.limbBase + xi * (y % Config.limbBase)) * m' % Config.limbBase
  (A + xi * y + u * m) / Config.limbBase

/-- The accumulator after the iterations `i = 0 .. n-1` (R142). -/
def montAcc (x y m m' : Nat) (n : Nat) : Nat := (List.range n).foldl (montStep x y m m') 0

/-- `montmul(x, y, c)` (R142): eight iterations, then one conditional subtraction. -/
def montmul (x y : Elem) (c : Bank) : Elem :=
  let A := montAcc x.toNat y.toNat c.m.toNat c.m0inv.toNat Config.limbCount
  BitVec.ofNat 256 (if c.m.toNat ≤ A then A - c.m.toNat else A)

/-- `one(c) = montmul(1, R2, c)` (R146). -/
def montOne (c : Bank) : Elem := montmul 1 c.r2 c

/-- `[x] = x·R mod m`, the Montgomery form of the number `x` for the bank `c` (R149). No register carries a domain tag and
no command checks one (R23): the algebra of R149 speaks of registers that hold such values. Its laws are `montForm_zero`,
`montmul_montForm`, `montmul_montForm_standard`, `fadd_montForm`, `fsub_montForm` and `finv_montForm` of Laws/Mont.lean. -/
def montForm (c : Bank) (x : Nat) : Elem := BitVec.ofNat 256 (x * 2 ^ 256 % c.m.toNat)

/-- `fadd(x, y, c)` (R150): the 257-bit sum, less `m` once if it is at least `m`, low 256 bits. -/
def fadd (x y : Elem) (c : Bank) : Elem :=
  let s := x.toNat + y.toNat
  BitVec.ofNat 256 (if c.m.toNat ≤ s then s - c.m.toNat else s)

/-- `fsub(x, y, c)` (R152): the wrapped difference, plus `m` if there was a borrow. -/
def fsub (x y : Elem) (c : Bank) : Elem :=
  let d := x - y
  if x.toNat < y.toNat then d + c.m else d

/-- `n` iterations of `finv`'s loop, for exponent bits `n-1` down to 0 (R154). -/
def finvLoop (x : Elem) (c : Bank) (e : Elem) : Nat → Elem → Elem
  | 0, r => r
  | i + 1, r =>
    let r := montmul r r c
    let t := montmul r x c
    finvLoop x c e i (if e.getLsbD i then t else r)

/-- `finv(x, c)` (R154): the power with exponent `(m - 2) mod 2^256`, all 256 bits processed. -/
def finv (x : Elem) (c : Bank) : Elem := finvLoop x c (c.m - 2) Config.elemBits (montOne c)

end Sys2Proof.Machine
end

