-- ==== Sys2Proof/Machine/CurveArith.lean ====
section
/-! DEFINITION. The curve functions `pdbl`, `padd`, `toaff`, `smul` (spec/42_curve.md R172, R175, R178, R181), in the
literal order of the rules, for bank P `c` and curve coefficient `a` (R170). -/

namespace Sys2Proof.Machine

open Sys2Proof

/-- `pdbl` (R172). -/
def pdbl (c : Bank) (a : Elem) (p : Triple) : Triple :=
  let yy := montmul p.y p.y c
  let t := montmul p.x yy c
  let t := fadd t t c
  let s := fadd t t c
  let zz := montmul p.z p.z c
  let z4 := montmul zz zz c
  let xx := montmul p.x p.x c
  let m := fadd (fadd xx xx c) xx c
  let m := fadd m (montmul a z4 c) c
  let x3 := fsub (montmul m m c) (fadd s s c) c
  let y4 := montmul yy yy c
  let e := fadd y4 y4 c
  let e := fadd e e c
  let e := fadd e e c
  let y3 := fsub (montmul m (fsub s x3 c) c) e c
  let yz := montmul p.y p.z c
  let z3 := fadd yz yz c
  { x := x3, y := y3, z := z3 }

/-- The difference of the x coordinates over the common denominator, `H = U2 - U1` (R175). -/
def paddH (c : Bank) (p1 p2 : Triple) : Elem :=
  let z1z1 := montmul p1.z p1.z c
  let z2z2 := montmul p2.z p2.z c
  fsub (montmul p2.x z1z1 c) (montmul p1.x z2z2 c) c

/-- The difference of the y coordinates over the common denominator, `Rr = S2 - S1` (R175). -/
def paddRr (c : Bank) (p1 p2 : Triple) : Elem :=
  let z1z1 := montmul p1.z p1.z c
  let z2z2 := montmul p2.z p2.z c
  let s1 := montmul (montmul p1.y p2.z c) z2z2 c
  let s2 := montmul (montmul p2.y p1.z c) z1z1 c
  fsub s2 s1 c

/-- The generic sum `G` (R175). -/
def paddGeneric (c : Bank) (p1 p2 : Triple) : Triple :=
  let z2z2 := montmul p2.z p2.z c
  let u1 := montmul p1.x z2z2 c
  let s1 := montmul (montmul p1.y p2.z c) z2z2 c
  let h := paddH c p1 p2
  let rr := paddRr c p1 p2
  let hh := montmul h h c
  let hhh := montmul h hh c
  let v := montmul u1 hh c
  let x3 := fsub (fsub (montmul rr rr c) hhh c) (fadd v v c) c
  let y3 := fsub (montmul rr (fsub v x3 c) c) (montmul s1 hhh c) c
  let z3 := montmul (montmul h p1.z c) p2.z c
  { x := x3, y := y3, z := z3 }

/-- `padd` (R175): the generic sum, then the three selections in order, each overriding the earlier ones. -/
def padd (c : Bank) (a : Elem) (p1 p2 : Triple) : Triple :=
  let res := paddGeneric c p1 p2
  let res := if isZeroElem (paddH c p1 p2) && isZeroElem (paddRr c p1 p2) then pdbl c a p1 else res
  let res := if isZeroElem p2.z then p1 else res
  let res := if isZeroElem p1.z then p2 else res
  res

/-- `toaff` (R178): the pair and the infinity bit; the sentinel (0, 0) is selected after the arithmetic. -/
def toaff (c : Bank) (p : Triple) : Pair × Bool :=
  let zi := finv p.z c
  let zi2 := montmul zi zi c
  let zi3 := montmul zi2 zi c
  let x := montmul p.x zi2 c
  let y := montmul p.y zi3 c
  let inf := isZeroElem p.z
  (if inf then { x := 0, y := 0 } else { x := x, y := y }, inf)

/-- The base point as a triple: the sentinel (0, 0) becomes infinity, any other pair gets `Z = ONE` (R181). -/
def smulBase (c : Bank) (q : Pair) : Triple :=
  { x := q.x, y := q.y, z := if isZeroElem q.x && isZeroElem q.y then 0 else montOne c }

/-- `k v`, with `v` reduced to a numeral first. It is `k v` (`Elem.onValue_eq` in Laws/Curve.lean); it lets Lean's kernel
run the 256 iterations of the ladder. -/
def Elem.onValue {α : Type} (v : Elem) (k : Elem → α) : α :=
  match v.toNat with
  | 0 => k 0
  | n + 1 => k (BitVec.ofNat 256 (n + 1))

/-- `k t`, with the coordinates of `t` reduced to numerals first. -/
def Triple.onValue {α : Type} (t : Triple) (k : Triple → α) : α :=
  Elem.onValue t.x fun x => Elem.onValue t.y fun y => Elem.onValue t.z fun z => k { x := x, y := y, z := z }

/-- `n` iterations of the ladder, for scalar bits `n-1` down to 0 (R181): double, always compute the sum, select. -/
def smulLoop (c : Bank) (a k : Elem) (q : Triple) : Nat → Triple → Triple
  | 0, acc => acc
  | i + 1, acc =>
    (pdbl c a acc).onValue fun acc =>
      let tmp := padd c a acc q
      (if k.getLsbD i then tmp else acc).onValue fun acc => smulLoop c a k q i acc

/-- `smul(k, (x, y))` (R181): all 256 bits of the raw integer `k`, from the accumulator (0, 0, 0). -/
def smul (c : Bank) (a k : Elem) (q : Pair) : Pair × Bool :=
  toaff c (smulLoop c a k (smulBase c q) Config.elemBits { x := 0, y := 0, z := 0 })

end Sys2Proof.Machine
end

