-- ==== Sys2Proof/Machine/Curve.lean ====
section
/-! DEFINITION. The curve commands (spec/42_curve.md R170 to R182). Each uses bank P, needs its group bounds (R100)
and LOCKED, and writes `INF` and no other flag (R170). -/

namespace Sys2Proof.Machine

open Sys2Proof

/-- PDBL (R173). -/
def execPdbl (rd ra : Reg) (s : State) : Host.Outcome State Fault Refusal :=
  whenInBounds (Instr.pdbl rd ra).wf s <| whenLocked s <|
    complete { s.setTriple rd (pdbl s.ctxP s.ctxA (s.getTriple ra)) with
      inf := isZeroElem (pdbl s.ctxP s.ctxA (s.getTriple ra)).z }

/-- PADD (R176). -/
def execPadd (rd ra rb : Reg) (s : State) : Host.Outcome State Fault Refusal :=
  whenInBounds (Instr.padd rd ra rb).wf s <| whenLocked s <|
    complete { s.setTriple rd (padd s.ctxP s.ctxA (s.getTriple ra) (s.getTriple rb)) with
      inf := isZeroElem (padd s.ctxP s.ctxA (s.getTriple ra) (s.getTriple rb)).z }

/-- TOAFFINE (R179). -/
def execToaffine (rd ra : Reg) (s : State) : Host.Outcome State Fault Refusal :=
  whenInBounds (Instr.toaffine rd ra).wf s <| whenLocked s <|
    complete { s.setPair rd (toaff s.ctxP (s.getTriple ra)).1 with inf := (toaff s.ctxP (s.getTriple ra)).2 }

/-- SCALARMUL (R182). -/
def execScalarmul (rd ra rb : Reg) (s : State) : Host.Outcome State Fault Refusal :=
  whenInBounds (Instr.scalarmul rd ra rb).wf s <| whenLocked s <|
    complete { s.setPair rd (smul s.ctxP s.ctxA (s.getF ra) (s.getPair rb)).1 with
      inf := (smul s.ctxP s.ctxA (s.getF ra) (s.getPair rb)).2 }

end Sys2Proof.Machine
end

