-- ==== Sys2Proof/Machine/Montgomery.lean ====
section
/-! DEFINITION. The modular and Montgomery commands (spec/41_field_montgomery.md R139 to R155). Each needs LOCKED
(R139); none writes a flag (R35, R139). -/

namespace Sys2Proof.Machine

open Sys2Proof

/-- FROMBYTES (R140). -/
def execFrombytes (rd : Reg) (ctx : Ctx) (s : State) : Host.Outcome State Fault Refusal :=
  whenLocked s <|
    if (s.bank ctx).m ≤ be32 s.dbuf then failWith .outOfRange s
    else complete (s.setF rd (montmul (be32 s.dbuf) (s.bank ctx).r2 (s.bank ctx)))

/-- TOBYTES (R141). -/
def execTobytes (ra : Reg) (ctx : Ctx) (s : State) : Host.Outcome State Fault Refusal :=
  whenLocked s <| complete { s with dbuf := toBe32 (montmul (s.getF ra) 1 (s.bank ctx)) }

/-- MONTMUL (R143). -/
def execMontmul (rd ra rb : Reg) (ctx : Ctx) (s : State) : Host.Outcome State Fault Refusal :=
  whenLocked s <| complete (s.setF rd (montmul (s.getF ra) (s.getF rb) (s.bank ctx)))

/-- TOMONT (R147). -/
def execTomont (rd ra : Reg) (ctx : Ctx) (s : State) : Host.Outcome State Fault Refusal :=
  whenLocked s <| complete (s.setF rd (montmul (s.getF ra) (s.bank ctx).r2 (s.bank ctx)))

/-- FROMMONT (R148). -/
def execFrommont (rd ra : Reg) (ctx : Ctx) (s : State) : Host.Outcome State Fault Refusal :=
  whenLocked s <| complete (s.setF rd (montmul (s.getF ra) 1 (s.bank ctx)))

/-- MODADD (R151). -/
def execModadd (rd ra rb : Reg) (ctx : Ctx) (s : State) : Host.Outcome State Fault Refusal :=
  whenLocked s <| complete (s.setF rd (fadd (s.getF ra) (s.getF rb) (s.bank ctx)))

/-- MODSUB (R153). -/
def execModsub (rd ra rb : Reg) (ctx : Ctx) (s : State) : Host.Outcome State Fault Refusal :=
  whenLocked s <| complete (s.setF rd (fsub (s.getF ra) (s.getF rb) (s.bank ctx)))

/-- FINV (R155): the register is written also when the operand is zero. Then it receives 0 (R214, D20, U7), which is what
the exponentiation gives in every bank but one of modulus 2 (log entry 6), and the code says that it is no inverse. -/
def execFinv (rd ra : Reg) (ctx : Ctx) (s : State) : Host.Outcome State Fault Refusal :=
  whenLocked s <|
    if isZeroElem (s.getF ra) then failWith .curveOperationFailure (s.setF rd 0)
    else complete (s.setF rd (finv (s.getF ra) (s.bank ctx)))

end Sys2Proof.Machine
end

