-- ==== Sys2Proof/Machine/System.lean ====
section
/-! DEFINITION. The system commands (spec/43_system.md R200 to R202). They run locked or unlocked. -/

namespace Sys2Proof.Machine

open Sys2Proof

/-- NOP (R200). -/
def execNop (s : State) : Host.Outcome State Fault Refusal := complete s

/-- LOCK (R201): no validation of the banks. -/
def execLock (s : State) : Host.Outcome State Fault Refusal := complete { s with locked := true }

/-- ZEROIZE (R202): registers, flags and `DBUF`; `LOCKED` and the banks stay. -/
def execZeroize (s : State) : Host.Outcome State Fault Refusal :=
  complete { s with
    f := Vector.replicate 16 0
    cy := false
    bw := false
    tf := false
    inf := false
    dbuf := Vector.replicate 32 0 }

end Sys2Proof.Machine
end

