-- ==== Sys2Proof/Machine/Dispatch.lean ====
section
/-! DEFINITION. The dispatch of a decoded command to its meaning, one arm per constructor (spec/30_encoding.md R96). -/

namespace Sys2Proof.Machine

open Sys2Proof

/-- The effect of a command (step 3 of R101, with the checks its own rule makes). -/
def exec (i : Instr) (s : State) : Host.Outcome State Fault Refusal :=
  match i with
  | .nop => Sys2Proof.Machine.execNop s
  | .setsmall rd imm16 => Sys2Proof.Machine.execSetsmall rd imm16 s
  | .add rd ra rb => Sys2Proof.Machine.execAdd rd ra rb s
  | .sub rd ra rb => Sys2Proof.Machine.execSub rd ra rb s
  | .cmov rd ra cond => Sys2Proof.Machine.execCmov rd ra cond s
  | .iszero ra => Sys2Proof.Machine.execIszero ra s
  | .eq ra rb => Sys2Proof.Machine.execEq ra rb s
  | .frombytes rd ctx => Sys2Proof.Machine.execFrombytes rd ctx s
  | .tobytes ra ctx => Sys2Proof.Machine.execTobytes ra ctx s
  | .montmul rd ra rb ctx => Sys2Proof.Machine.execMontmul rd ra rb ctx s
  | .tomont rd ra ctx => Sys2Proof.Machine.execTomont rd ra ctx s
  | .frommont rd ra ctx => Sys2Proof.Machine.execFrommont rd ra ctx s
  | .modadd rd ra rb ctx => Sys2Proof.Machine.execModadd rd ra rb ctx s
  | .modsub rd ra rb ctx => Sys2Proof.Machine.execModsub rd ra rb ctx s
  | .finv rd ra ctx => Sys2Proof.Machine.execFinv rd ra ctx s
  | .pdbl rd ra => Sys2Proof.Machine.execPdbl rd ra s
  | .padd rd ra rb => Sys2Proof.Machine.execPadd rd ra rb s
  | .toaffine rd ra => Sys2Proof.Machine.execToaffine rd ra s
  | .scalarmul rd ra rb => Sys2Proof.Machine.execScalarmul rd ra rb s
  | .lock => Sys2Proof.Machine.execLock s
  | .zeroize => Sys2Proof.Machine.execZeroize s

end Sys2Proof.Machine
end

