-- ==== Sys2Proof/Machine/Port.lean ====
section
/-! DEFINITION. The host port (spec/20_memory.md R60 to R72): the address map, `HostRead`, `HostWrite`, the execution
of a command word (spec/30_encoding.md R101), and one host action. -/

namespace Sys2Proof.Machine

open Sys2Proof

/-! ### The address map (R62, R64) -/

/-- The limb number of a byte offset inside an eight-limb field. -/
def limbIndex (off : Nat) : Fin 8 := Fin.ofNat 8 (off / 4)

/-- The register at a byte offset of the window (R64). -/
def portReg (off : Nat) : PortReg :=
  if off = 0x000 then .cmd
  else if off = 0x004 then .status
  else if off = 0x008 then .flags
  else if 0x040 ≤ off ∧ off ≤ 0x05C then .dbuf (limbIndex (off - 0x040))
  else if 0x100 ≤ off ∧ off ≤ 0x11C then .ctxM .p (limbIndex (off - 0x100))
  else if 0x120 ≤ off ∧ off ≤ 0x13C then .ctxR2 .p (limbIndex (off - 0x120))
  else if off = 0x140 then .ctxM0inv .p
  else if 0x160 ≤ off ∧ off ≤ 0x17C then .ctxA (limbIndex (off - 0x160))
  else if 0x180 ≤ off ∧ off ≤ 0x19C then .ctxM .n (limbIndex (off - 0x180))
  else if 0x1A0 ≤ off ∧ off ≤ 0x1BC then .ctxR2 .n (limbIndex (off - 0x1A0))
  else if off = 0x1C0 then .ctxM0inv .n
  else if 0x200 ≤ off ∧ off ≤ 0x3FC then .freg (Fin.ofNat 16 ((off - 0x200) / 0x20)) (limbIndex ((off - 0x200) % 0x20))
  else .reserved

/-! ### HostRead (R62) -/

/-- The value of a window register as the host reads it (R62). -/
def readReg (r : PortReg) (s : State) : Word32 :=
  match r with
  | .cmd => 0
  | .status => statusWord s
  | .flags => flagsWord s
  | .dbuf w => dbufWord s.dbuf w
  | .ctxM c j => limb (s.bank c).m j
  | .ctxR2 c j => limb (s.bank c).r2 j
  | .ctxM0inv c => (s.bank c).m0inv
  | .ctxA j => limb s.ctxA j
  | .freg i j => limb (s.getF i) j
  | .reserved => 0

/-- `HostRead(off)` (R62). -/
def hostRead (off : Nat) (s : State) : Word32 := readReg (portReg off) s

/-! ### HostWrite (R63) -/

/-- A write to a context bank: stored while unlocked, ignored (no error recorded) when locked (R41, R63). -/
def whileUnlocked (s t : State) : State := if s.locked then s else t

/-- The effect of a host write on a window register other than `CMD` (R63). -/
def writeReg (r : PortReg) (v : Word32) (s : State) : State :=
  match r with
  | .cmd => s
  | .status => s
  | .flags => s
  | .dbuf w => { s with dbuf := setDbufWord s.dbuf w v }
  | .ctxM c j => whileUnlocked s (s.setBank c { s.bank c with m := setLimb (s.bank c).m j v })
  | .ctxR2 c j => whileUnlocked s (s.setBank c { s.bank c with r2 := setLimb (s.bank c).r2 j v })
  | .ctxM0inv c => whileUnlocked s (s.setBank c { s.bank c with m0inv := v })
  | .ctxA j => whileUnlocked s { s with ctxA := setLimb s.ctxA j v }
  | .freg i j => s.setF i (setLimb (s.getF i) j v)
  | .reserved => s

/-- Decoding and execution of a command word (R101): an illegal word sets `ERR` and changes nothing else (R99), and so
has priority over every check of the command itself (R216). -/
def runCommand (w : Word32) (s : State) : Host.Outcome State Fault Refusal :=
  match decode w with
  | .ok i => exec i s
  | .error _ => failWith .illegalCommand s

/-- `HostWrite(off, v)` (R63). -/
def hostWrite (off : Nat) (v : Word32) (s : State) : Host.Outcome State Fault Refusal :=
  match portReg off with
  | .cmd => runCommand v s
  | r => .next (writeReg r v s)

/-! ### One host action -/

/-- Why an access is no MFCE access, if it is none (R61, R68): the model refuses it. -/
def accessRefusal (bits off : Nat) : Option Refusal :=
  if bits ≠ 32 then some (.notWordAccess bits)
  else if off % 4 ≠ 0 then some (.misalignedAccess off)
  else if Config.windowBytes ≤ off then some (.outsideWindow off)
  else none

/-- Run an access that the port accepts; refuse one that it does not (R61). -/
def whenAccepted (bits off : Nat) (run : Host.Outcome State Fault Refusal) : Host.Outcome State Fault Refusal :=
  match accessRefusal bits off with
  | some r => .refused r
  | none => run

/-- One action of the host, performed to completion (R70, R72). A read changes no state of the engine (R62); the value
it returns goes to the model's record of replies (log entry 2). -/
def hostAction (a : HostAction) (s : State) : Host.Outcome State Fault Refusal :=
  match a with
  | .read bits off => whenAccepted bits off (.next { s with replies := hostRead off s :: s.replies })
  | .write bits off v => whenAccepted bits off (hostWrite off v s)
  | .reset => .next s.afterReset

/-- The command access that carries a command word: a 32-bit write to `CMD` (R39, R63). -/
def cmdWrite (w : Word32) : HostAction := .write 32 0x000 w

end Sys2Proof.Machine
end

