-- ==== Sys2Proof/Machine/Step.lean ====
section
/-! DEFINITION. One step of the machine: the next host action, performed to completion (spec/20_memory.md R70, R72).
MFCE fetches nothing (spec/10_state.md R29, R75); where a program counter would stand, the state holds the host's
accesses to come (log entry 1). -/

namespace Sys2Proof.Machine

open Sys2Proof

/-- One step: take the host's next access and perform it. With no access pending the engine is idle and holds its
state (R235, R259; log entry 4). -/
def step (s : State) : Host.Outcome State Fault Refusal :=
  match s.pending with
  | [] => .next s
  | a :: rest => hostAction a { s with pending := rest }

/-- `s` with the command of `w` (its bits above `nbits` zero) as the host's very next access: a write to `CMD`. -/
def State.withFetchWord (s : State) (nbits w : Nat) : State :=
  { s with pending := cmdWrite (BitVec.ofNat 32 (w % 2 ^ nbits)) :: s.pending }

end Sys2Proof.Machine
end

