-- ==== Sys2Proof/Safety.lean ====
section
/-! DEFINITION. The terms in which statements speak of a safe or in-contract run: accesses the port accepts
(spec/20_memory.md R61), valid and curve-valid banks (spec/00_scope.md R8), canonical values (R15), the standard-domain
value of a register and the point a group of registers represents (spec/10_state.md R26 to R28), and the invariants of
the machine. The machine itself checks none of the contract conditions (spec/70_reset_and_hazards.md R245). -/

namespace Sys2Proof.Machine

open Sys2Proof

/-! ### Accesses -/

/-- The host action is one the port accepts (R61); `Reset` always is (R241). -/
def HostAction.Accepted : HostAction → Prop
  | .read bits off => bits = 32 ∧ off % 4 = 0 ∧ off < 0x400
  | .write bits off _ => bits = 32 ∧ off % 4 = 0 ∧ off < 0x400
  | .reset => True

/-! ### Contexts and canonical values (R8, R15) -/

/-- A valid context (R8). The condition on `M0INV` is `M · M0INV ≡ -1 (mod 2^32)`, the defining property of
`(-M⁻¹) mod 2^32`. -/
def Bank.Valid (c : Bank) : Prop :=
  c.m.toNat % 2 = 1 ∧ 3 ≤ c.m.toNat ∧ c.r2.toNat = 2 ^ 512 % c.m.toNat ∧
    c.m.toNat * c.m0inv.toNat % 2 ^ 32 = 2 ^ 32 - 1

/-- Canonical for context `c`: below the modulus (R15). -/
def Canonical (c : Bank) (v : Elem) : Prop := v.toNat < c.m.toNat

/-- The standard-domain value of a register in the Montgomery domain of modulus `p`: `v·R⁻¹ mod p` (R28). -/
def stdVal (p : Nat) (v : Elem) : ZMod p := (v.toNat : ZMod p) * ((2 ^ 256 : ZMod p))⁻¹

/-- Bank P, with its coefficient register, is curve-valid for `y² = x³ + a·x + b` over the field of `p` elements
(R8): valid, modulus `p` (prime where it is used: a `Fact`), `A` the Montgomery form of `a`, and `b ≠ 0`. -/
def CurveValid (c : Bank) (aReg : Elem) (p : Nat) (a b : ZMod p) : Prop :=
  c.Valid ∧ c.m.toNat = p ∧ Canonical c aReg ∧ stdVal p aReg = a ∧ b ≠ 0

/-! ### Points (R8, R26 to R28) -/

/-- The curve `y² = x³ + a·x + b` (R8). -/
def shortCurve (p : Nat) (a b : ZMod p) : WeierstrassCurve.Affine (ZMod p) :=
  { a₁ := 0, a₂ := 0, a₃ := 0, a₄ := a, a₆ := b }

/-- The canonical triple `t` represents the curve point `P` (R28): `Z = 0` for infinity, else
`(X, Y, Z) = (x·Z², y·Z³, Z)` in standard-domain values. -/
def RepTriple (p : Nat) {a b : ZMod p} (t : Triple) (P : (shortCurve p a b).Point) : Prop :=
  (t.x.toNat < p ∧ t.y.toNat < p ∧ t.z.toNat < p) ∧
    match P with
    | .zero => t.z = 0
    | .some x y _ => t.z ≠ 0 ∧ stdVal p t.x = x * stdVal p t.z ^ 2 ∧ stdVal p t.y = y * stdVal p t.z ^ 3

/-- The canonical pair `q` is the affine form of the curve point `P` (R26, R27): the sentinel (0, 0) for infinity. -/
def RepPair (p : Nat) {a b : ZMod p} (q : Pair) (P : (shortCurve p a b).Point) : Prop :=
  (q.x.toNat < p ∧ q.y.toNat < p) ∧
    match P with
    | .zero => q.x = 0 ∧ q.y = 0
    | .some x y _ => stdVal p q.x = x ∧ stdVal p q.y = y

/-! ### Invariants of the machine -/

/-- The result code is one that MFCE writes (R211, R213): codes 3 and 4 belong to the host's software. -/
def State.ErrProduced (s : State) : Prop := s.err ≠ .verifierMismatch ∧ s.err ≠ .resourceFailure

/-- The configuration that LOCK freezes is the same in two states (R38, R41). -/
def State.SameConfig (s t : State) : Prop :=
  s.locked = t.locked ∧ s.ctxP = t.ctxP ∧ s.ctxA = t.ctxA ∧ s.ctxN = t.ctxN

end Sys2Proof.Machine
end

