-- ==== Sys2Proof/Certificates/Slice0/Obligations.lean ====
section
/-! DEFINITION. The statements for the provers, from the numbered rules of spec/. A record update `{ s with … }` in a
conclusion says the whole frame: every field it does not name is unchanged. -/

open Sys2Proof Sys2Proof.Machine

namespace Sys2Proof.Spec

/-- One row of the opcode table read on a word (R96): mask and match of the row, whether the fields that carry a bound
are within it, and the command the row makes of the word's fields. -/
structure TableRow where
  mask : Word32
  value : Word32
  inBounds : Bool
  command : Instr

/-- The 21 rows of R96 on the word `w`, with the masks listed there, the bounds of R97 and R100, and the fields of R91
and R92. -/
def tableRows (w : Word32) : List TableRow :=
  let rd := rdField w
  let ra := raField w
  let rb := rbField w
  let ctx := Ctx.ofBit (ctxField w)
  [⟨0xFFFFFFFF, 0x00000000, true, .nop⟩,
   ⟨0xFF0F0000, 0x01000000, true, .setsmall rd (immField w)⟩,
   ⟨0xFF000FFF, 0x02000000, true, .add rd ra rb⟩,
   ⟨0xFF000FFF, 0x03000000, true, .sub rd ra rb⟩,
   ⟨0xFF00F0FF, 0x04000000, decide ((condField w).toNat ≤ 9), .cmov rd ra ((Cond.ofCode (condField w)).getD .never)⟩,
   ⟨0xFFF0FFFF, 0x05000000, true, .iszero ra⟩,
   ⟨0xFFF00FFF, 0x06000000, true, .eq ra rb⟩,
   ⟨0xFF0FFF7F, 0x08000000, true, .frombytes rd ctx⟩,
   ⟨0xFFF0FF7F, 0x09000000, true, .tobytes ra ctx⟩,
   ⟨0xFF000F7F, 0x0A000000, true, .montmul rd ra rb ctx⟩,
   ⟨0xFF00FF7F, 0x0B000000, true, .tomont rd ra ctx⟩,
   ⟨0xFF00FF7F, 0x0C000000, true, .frommont rd ra ctx⟩,
   ⟨0xFF000F7F, 0x0D000000, true, .modadd rd ra rb ctx⟩,
   ⟨0xFF000F7F, 0x0E000000, true, .modsub rd ra rb ctx⟩,
   ⟨0xFF00FF7F, 0x0F000000, true, .finv rd ra ctx⟩,
   ⟨0xFF00FFFF, 0x10000000, decide (rd.val ≤ 13 ∧ ra.val ≤ 13), .pdbl rd ra⟩,
   ⟨0xFF000FFF, 0x11000000, decide (rd.val ≤ 13 ∧ ra.val ≤ 13 ∧ rb.val ≤ 13), .padd rd ra rb⟩,
   ⟨0xFF00FFFF, 0x12000000, decide (rd.val ≤ 14 ∧ ra.val ≤ 13), .toaffine rd ra⟩,
   ⟨0xFF000FFF, 0x13000000, decide (rd.val ≤ 14 ∧ rb.val ≤ 14), .scalarmul rd ra rb⟩,
   ⟨0xFFFFFFFF, 0x1E000000, true, .lock⟩,
   ⟨0xFFFFFFFF, 0x1F000000, true, .zeroize⟩]

/-- The word `w` is a legal form of the row (R96). -/
def TableRow.Legal (r : TableRow) (w : Word32) : Prop := w &&& r.mask = r.value ∧ r.inBounds = true

/-- The commands with `op` in 0x08 to 0x13: those that use a context (R96, R101). -/
def usesContext : Instr → Bool
  | .nop | .setsmall _ _ | .add _ _ _ | .sub _ _ _ | .cmov _ _ _ | .iszero _ | .eq _ _ | .lock | .zeroize => false
  | .frombytes _ _ | .tobytes _ _ | .montmul _ _ _ _ | .tomont _ _ _ | .frommont _ _ _ | .modadd _ _ _ _
  | .modsub _ _ _ _ | .finv _ _ _ | .pdbl _ _ | .padd _ _ _ | .toaffine _ _ | .scalarmul _ _ _ => true

/-- The result code of a command word, by the causes and the order of R212 and R216. -/
def resultCode (w : Word32) (s : State) : ErrCode :=
  match decode w with
  | .error _ => .illegalCommand
  | .ok i =>
    if usesContext i = true ∧ s.locked = false then .notConfigured
    else
      match i with
      | .frombytes _ c => if (s.bank c).m.toNat ≤ (be32 s.dbuf).toNat then .outOfRange else .ok
      | .finv _ ra _ => if s.getF ra = 0 then .curveOperationFailure else .ok
      | _ => .ok

/-- The registers a command other than ZEROIZE may write (R24, R25, R26). -/
def destRegs : Instr → List Reg
  | .setsmall rd _ | .add rd _ _ | .sub rd _ _ | .cmov rd _ _ | .frombytes rd _ | .montmul rd _ _ _ | .tomont rd _ _
  | .frommont rd _ _ | .modadd rd _ _ _ | .modsub rd _ _ _ | .finv rd _ _ => [rd]
  | .pdbl rd _ | .padd rd _ _ => [rd, rd + 1, rd + 2]
  | .toaffine rd _ | .scalarmul rd _ _ => [rd, rd + 1]
  | .nop | .iszero _ | .eq _ _ | .tobytes _ _ | .lock | .zeroize => []

/-- A reserved offset of the window (R64, R65). -/
def ReservedOffset (off : Nat) : Prop :=
  (0x00C ≤ off ∧ off ≤ 0x03C) ∨ (0x060 ≤ off ∧ off ≤ 0x0FC) ∨ (0x144 ≤ off ∧ off ≤ 0x15C) ∨
    (0x1C4 ≤ off ∧ off ≤ 0x1FC)

/-- An offset of a context bank (R64). -/
def ContextOffset (off : Nat) : Prop := 0x100 ≤ off ∧ off ≤ 0x1C0 ∧ ¬ ReservedOffset off

/-- An offset whose word a host write stores in the state `s` (R63): `DBUF`, a field register, or a context field while
unlocked. -/
def StoredOffset (s : State) (off : Nat) : Prop :=
  (0x040 ≤ off ∧ off ≤ 0x05C) ∨ (0x200 ≤ off ∧ off ≤ 0x3FC) ∨ (ContextOffset off ∧ s.locked = false)

/-- The four bytes of a word in reverse order (R66). -/
def byteswap32 (v : Word32) : Word32 :=
  v.extractLsb' 0 8 ++ v.extractLsb' 8 8 ++ v.extractLsb' 16 8 ++ v.extractLsb' 24 8

/-- The steps of R172 in their order: `r` is what they compute from `q`, for bank P `c` and coefficient register `a`. -/
def PdblSteps (c : Bank) (a : Elem) (q r : Triple) : Prop :=
  ∃ YY t1 t2 S ZZ Z4 XX M1 M2 M Y4 e1 e2 e YZ : Elem,
    YY = montmul q.y q.y c ∧ t1 = montmul q.x YY c ∧ t2 = fadd t1 t1 c ∧ S = fadd t2 t2 c ∧
    ZZ = montmul q.z q.z c ∧ Z4 = montmul ZZ ZZ c ∧ XX = montmul q.x q.x c ∧
    M1 = fadd XX XX c ∧ M2 = fadd M1 XX c ∧ M = fadd M2 (montmul a Z4 c) c ∧
    r.x = fsub (montmul M M c) (fadd S S c) c ∧
    Y4 = montmul YY YY c ∧ e1 = fadd Y4 Y4 c ∧ e2 = fadd e1 e1 c ∧ e = fadd e2 e2 c ∧
    r.y = fsub (montmul M (fsub S r.x c) c) e c ∧
    YZ = montmul q.y q.z c ∧ r.z = fadd YZ YZ c

/-- The steps of R175 in their order: the generic triple `G`, the double `D` of the first operand by the steps of R172, and
the three selections, each overriding the earlier ones. -/
def PaddSteps (c : Bank) (a : Elem) (p q r : Triple) : Prop :=
  ∃ (Z1Z1 Z2Z2 U1 U2 S1 S2 H Rr HH HHH V : Elem) (G D sel1 sel2 : Triple),
    Z1Z1 = montmul p.z p.z c ∧ Z2Z2 = montmul q.z q.z c ∧
    U1 = montmul p.x Z2Z2 c ∧ U2 = montmul q.x Z1Z1 c ∧
    S1 = montmul (montmul p.y q.z c) Z2Z2 c ∧ S2 = montmul (montmul q.y p.z c) Z1Z1 c ∧
    H = fsub U2 U1 c ∧ Rr = fsub S2 S1 c ∧
    HH = montmul H H c ∧ HHH = montmul H HH c ∧ V = montmul U1 HH c ∧
    G.x = fsub (fsub (montmul Rr Rr c) HHH c) (fadd V V c) c ∧
    G.y = fsub (montmul Rr (fsub V G.x c) c) (montmul S1 HHH c) c ∧
    G.z = montmul (montmul H p.z c) q.z c ∧
    PdblSteps c a p D ∧
    sel1 = (if H = 0 ∧ Rr = 0 then D else G) ∧
    sel2 = (if q.z = 0 then p else sel1) ∧
    r = if p.z = 0 then q else sel2

/-- The steps of R178 in their order: the pair `q` and the bit `inf` from the triple `p`. -/
def ToaffSteps (c : Bank) (p : Triple) (q : Pair) (inf : Bool) : Prop :=
  ∃ zi zi2 zi3 : Elem,
    zi = finv p.z c ∧ zi2 = montmul zi zi c ∧ zi3 = montmul zi2 zi c ∧
    inf = decide (p.z = 0) ∧
    q = if inf = true then { x := 0, y := 0 } else { x := montmul p.x zi2 c, y := montmul p.y zi3 c }

end Sys2Proof.Spec

open Sys2Proof.Spec

/-! ### Encoding -/

/-- Decoding an encoded well-formed command gives it back, with every operand at every value (R91, R92, R96, R100). -/
def Obligations.DecodeOfEncode : Prop := ∀ i : Instr, i.wf = true → decode (encode i) = .ok i

/-- Each legal word has one meaning: a decoded word is the encoding of its command, which is well formed (R96, R98). -/
def Obligations.EncodeOfDecode : Prop := ∀ (w : Word32) (i : Instr), decode w = .ok i → i.wf = true ∧ encode i = w

/-- The decoder accepts a word exactly when it is a legal form of a row of the table, and gives that row's command; so
no word is a legal form of two rows, and a word of no row is illegal (R96). -/
def Obligations.DecodeFollowsOpcodeTable : Prop :=
  ∀ (w : Word32) (i : Instr), decode w = .ok i ↔ ∃ r ∈ tableRows w, r.Legal w ∧ r.command = i

/-- One word of every family, written out from R91, R92 and R96, decodes to the command it stands for. -/
def Obligations.SampleWordsDecode : Prop :=
  decode 0x00000000 = .ok .nop ∧ decode 0x1E000000 = .ok .lock ∧ decode 0x01301234 = .ok (.setsmall 3 0x1234) ∧
    decode 0x02201000 = .ok (.add 2 0 1) ∧ decode 0x04FE0900 = .ok (.cmov 15 14 .lt) ∧
    decode 0x08100080 = .ok (.frombytes 1 .n) ∧ decode 0x0A312000 = .ok (.montmul 3 1 2 .p) ∧
    decode 0x10DD0000 = .ok (.pdbl 13 13) ∧ decode 0x13EFE000 = .ok (.scalarmul 14 15 14)

/-! ### The step and the result code -/

/-- A step runs the decoded command: a write to `CMD` of a legal word is `exec` of its command in the state whose next
access is the one after it (R39, R63, R101; the list of accesses is the model's, log entry 1). -/
def Obligations.StepRunsDecodedCommand : Prop :=
  ∀ (s : State) (w : Word32) (i : Instr) (rest : List HostAction), s.pending = .write 32 0x000 w :: rest →
    decode w = .ok i → step s = exec i { s with pending := rest }

/-- An illegal word, that is one that is a legal form of no row of R96, sets `ERR` to `IllegalCommand` and changes nothing
else (R99). -/
def Obligations.IllegalWordOnlySetsErr : Prop :=
  ∀ (s : State) (w : Word32), (¬ ∃ r ∈ tableRows w, r.Legal w) →
    hostWrite 0x000 w s = .next { s with err := .illegalCommand }

/-- The order of R101: an illegal word first, then a context command while unlocked, then the command's own effect. -/
def Obligations.DecodingOrder : Prop :=
  ∀ (s : State) (w : Word32),
    ((∀ i, decode w ≠ .ok i) → hostWrite 0x000 w s = .next { s with err := .illegalCommand }) ∧
    (∀ i, decode w = .ok i → 0x08 ≤ (w.extractLsb' 24 8).toNat → (w.extractLsb' 24 8).toNat ≤ 0x13 → s.locked = false →
      hostWrite 0x000 w s = .next { s with err := .notConfigured }) ∧
    (∀ i, decode w = .ok i →
      ((w.extractLsb' 24 8).toNat < 0x08 ∨ 0x13 < (w.extractLsb' 24 8).toNat ∨ s.locked = true) →
      hostWrite 0x000 w s = exec i s)

/-- Every command word, legal or not, completes with one result code, by the causes and the priority of R212 and R216
(R102). -/
def Obligations.EveryCommandWritesErr : Prop :=
  ∀ (w : Word32) (s : State), ∃ t, runCommand w s = .next t ∧ t.err = resultCode w s

/-- After a failure only `ERR` has changed, but for FINV of zero, which also writes 0 to its destination (R210, R214; for
the modulus 2 log entry 6 says which of the spec's words are followed). -/
def Obligations.FailureLeavesState : Prop :=
  ∀ (i : Instr) (s t : State), exec i s = .next t → t.err ≠ .ok →
    t = { s with err := t.err } ∨
    ∃ rd ra c, i = .finv rd ra c ∧ s.locked = true ∧ s.getF ra = 0 ∧
      t = { s with f := s.f.set rd.val 0, err := .curveOperationFailure }

/-! ### Basic commands -/

/-- SETSMALL writes the zero-extended immediate and nothing else (R121). -/
def Obligations.SetsmallWritesImmediate : Prop :=
  ∀ (rd : Reg) (imm16 : BitVec 16) (s : State),
    decode (formI 0x01 rd imm16) = .ok (.setsmall rd imm16) ∧
    exec (.setsmall rd imm16) s = .next { s with f := s.f.set rd.val (BitVec.ofNat 256 imm16.toNat), err := .ok }

/-- ADD writes the sum modulo `2^256` and the carry, and nothing else (R122). -/
def Obligations.AddWritesSumAndCarry : Prop :=
  ∀ (rd ra rb : Reg) (s : State),
    decode (formR 0x02 rd ra rb 0 0) = .ok (.add rd ra rb) ∧
    exec (.add rd ra rb) s = .next { s with
      f := s.f.set rd.val (BitVec.ofNat 256 ((s.getF ra).toNat + (s.getF rb).toNat))
      cy := decide (2 ^ 256 ≤ (s.getF ra).toNat + (s.getF rb).toNat)
      err := .ok }

/-- SUB writes the difference modulo `2^256` and the borrow, and nothing else (R123). -/
def Obligations.SubWritesDifferenceAndBorrow : Prop :=
  ∀ (rd ra rb : Reg) (s : State),
    decode (formR 0x03 rd ra rb 0 0) = .ok (.sub rd ra rb) ∧
    exec (.sub rd ra rb) s = .next { s with
      f := s.f.set rd.val (BitVec.ofNat 256
        (if (s.getF rb).toNat ≤ (s.getF ra).toNat then (s.getF ra).toNat - (s.getF rb).toNat
         else (s.getF ra).toNat + 2 ^ 256 - (s.getF rb).toNat))
      bw := decide ((s.getF ra).toNat < (s.getF rb).toNat)
      err := .ok }

/-- CMOV copies the whole register when its condition holds and changes nothing otherwise; codes 10 to 15 are illegal
(R124). -/
def Obligations.CmovCopiesOnCondition : Prop :=
  (∀ (rd ra : Reg) (cond : Cond) (s : State),
    decode (formR 0x04 rd ra 0 cond.code 0) = .ok (.cmov rd ra cond) ∧
    exec (.cmov rd ra cond) s = .next { s with
      f := if condHolds cond s = true then s.f.set rd.val (s.getF ra) else s.f
      err := .ok }) ∧
  ∀ (rd ra : Reg) (code : BitVec 4), 10 ≤ code.toNat →
    decode (formR 0x04 rd ra 0 code 0) = .error .reservedCondition

/-- The ten conditions: their codes, their values on the flags, and the reading of GE after ADD and SUB; codes 10 to 15
name none (R97). -/
def Obligations.ConditionTable : Prop :=
  (∀ s : State,
    Cond.ofCode 0 = some .never ∧ condHolds .never s = false ∧
    Cond.ofCode 1 = some .always ∧ condHolds .always s = true ∧
    Cond.ofCode 2 = some .cy ∧ condHolds .cy s = s.cy ∧
    Cond.ofCode 3 = some .ncy ∧ condHolds .ncy s = !s.cy ∧
    Cond.ofCode 4 = some .bw ∧ condHolds .bw s = s.bw ∧
    Cond.ofCode 5 = some .nbw ∧ condHolds .nbw s = !s.bw ∧
    Cond.ofCode 6 = some .t ∧ condHolds .t s = s.tf ∧
    Cond.ofCode 7 = some .nt ∧ condHolds .nt s = !s.tf ∧
    Cond.ofCode 8 = some .ge ∧ condHolds .ge s = (s.cy || !s.bw) ∧
    Cond.ofCode 9 = some .lt ∧ condHolds .lt s = (!s.cy && s.bw) ∧ condHolds .lt s = !condHolds .ge s) ∧
  (∀ code : BitVec 4, 10 ≤ code.toNat → Cond.ofCode code = none) ∧
  ∀ (s t u : State) (rt ra rb ru rm : Reg), rm ≠ rt →
    exec (.add rt ra rb) s = .next t → exec (.sub ru rt rm) t = .next u →
    (condHolds .ge u = true ↔ (s.getF rm).toNat ≤ (s.getF ra).toNat + (s.getF rb).toNat)

/-- ISZERO writes `T` and nothing else (R126). -/
def Obligations.IszeroWritesT : Prop :=
  ∀ (ra : Reg) (s : State),
    decode (formR 0x05 0 ra 0 0 0) = .ok (.iszero ra) ∧
    exec (.iszero ra) s = .next { s with tf := decide ((s.getF ra).toNat = 0), err := .ok }

/-- EQ writes `T` and nothing else (R127). -/
def Obligations.EqWritesT : Prop :=
  ∀ (ra rb : Reg) (s : State),
    decode (formR 0x06 0 ra rb 0 0) = .ok (.eq ra rb) ∧
    exec (.eq ra rb) s = .next { s with tf := decide ((s.getF ra).toNat = (s.getF rb).toNat), err := .ok }

/-- ADD, SUB against a copy of the modulus, and CMOV GE reproduce MODADD's value, for every operand (R125, R150). -/
def Obligations.AddSubCmovReproduceModadd : Prop :=
  ∀ (s : State) (rd ra rb ru rm : Reg) (c : Ctx), rm ≠ rd → ru ≠ rd → s.getF rm = (s.bank c).m →
    ∃ t u v, exec (.add rd ra rb) s = .next t ∧ exec (.sub ru rd rm) t = .next u ∧
      exec (.cmov rd ru .ge) u = .next v ∧ v.getF rd = fadd (s.getF ra) (s.getF rb) (s.bank c)

/-! ### Montgomery and modular commands -/

/-- FROMBYTES: the big-endian integer `v` of the buffer, the range check against the modulus, the conversion on success
(with a valid bank `v·R mod m`), and only `ERR` on a failure (R140). -/
def Obligations.FrombytesChecksAndConverts : Prop :=
  ∀ (rd : Reg) (ctx : Ctx) (s : State) (v : Elem),
    v.toNat = ∑ k : Fin 32, (s.dbuf[k.val]).toNat * 256 ^ (31 - k.val) →
    decode (formR 0x08 rd 0 0 0 ctx.bit) = .ok (.frombytes rd ctx) ∧
    (s.locked = true → v.toNat < (s.bank ctx).m.toNat →
      exec (.frombytes rd ctx) s = .next { s with
        f := s.f.set rd.val (montmul v (s.bank ctx).r2 (s.bank ctx))
        err := .ok }) ∧
    ((s.bank ctx).Valid →
      (montmul v (s.bank ctx).r2 (s.bank ctx)).toNat = v.toNat * 2 ^ 256 % (s.bank ctx).m.toNat) ∧
    (s.locked = true → (s.bank ctx).m.toNat ≤ v.toNat →
      exec (.frombytes rd ctx) s = .next { s with err := .outOfRange }) ∧
    (s.locked = false → exec (.frombytes rd ctx) s = .next { s with err := .notConfigured })

/-- TOBYTES: `DBUF` receives the big-endian bytes of the converted value, and no register changes (R141). -/
def Obligations.TobytesWritesBuffer : Prop :=
  ∀ (ra : Reg) (ctx : Ctx) (s : State),
    decode (formR 0x09 0 ra 0 0 ctx.bit) = .ok (.tobytes ra ctx) ∧
    (s.locked = true → ∃ d : Vector Byte 32, exec (.tobytes ra ctx) s = .next { s with dbuf := d, err := .ok } ∧
      ∀ k : Fin 32, d[k.val] = (montmul (s.getF ra) 1 (s.bank ctx)).extractLsb' (8 * (31 - k.val)) 8) ∧
    (s.locked = false → exec (.tobytes ra ctx) s = .next { s with err := .notConfigured })

/-- `montmul` is the digit loop of R142, on exact integers, with one conditional subtraction at the end, for every
operand and every bank; with a valid bank every division is exact; the accumulator obeys the bound of R144 after every
iteration, so nothing is truncated. -/
def Obligations.MontmulFollowsDigitLoop : Prop :=
  ∀ (x y : Elem) (c : Bank), ∃ A u : Nat → Nat, A 0 = 0 ∧
    (∀ i : Fin 8,
      u i.val = (A i.val % 2 ^ 32 + (limb x i).toNat * (limb y 0).toNat) * c.m0inv.toNat % 2 ^ 32 ∧
      A (i.val + 1) = (A i.val + (limb x i).toNat * y.toNat + u i.val * c.m.toNat) / 2 ^ 32 ∧
      (c.Valid → 2 ^ 32 ∣ A i.val + (limb x i).toNat * y.toNat + u i.val * c.m.toNat) ∧
      (A (i.val + 1) < y.toNat + c.m.toNat ∨ A (i.val + 1) = 0 ∧ y = 0 ∧ c.m = 0)) ∧
    (montmul x y c).toNat = if c.m.toNat ≤ A 8 then A 8 - c.m.toNat else A 8

/-- MONTMUL writes the Montgomery product and nothing else; a zero factor gives 0 in every bank, and `one` is neutral for
canonical operands of a valid bank (R143). -/
def Obligations.MontmulWritesProduct : Prop :=
  ∀ (rd ra rb : Reg) (ctx : Ctx) (s : State),
    decode (formR 0x0A rd ra rb 0 ctx.bit) = .ok (.montmul rd ra rb ctx) ∧
    (s.locked = true → exec (.montmul rd ra rb ctx) s = .next { s with
      f := s.f.set rd.val (montmul (s.getF ra) (s.getF rb) (s.bank ctx))
      err := .ok }) ∧
    (s.getF ra = 0 ∨ s.getF rb = 0 → montmul (s.getF ra) (s.getF rb) (s.bank ctx) = 0) ∧
    ((s.bank ctx).Valid → Canonical (s.bank ctx) (s.getF ra) →
      montmul (s.getF ra) (montOne (s.bank ctx)) (s.bank ctx) = s.getF ra) ∧
    (s.locked = false → exec (.montmul rd ra rb ctx) s = .next { s with err := .notConfigured })

/-- In contract MONTMUL leaves the canonical value `x·y·R⁻¹ mod m` (R145). -/
def Obligations.MontmulInContract : Prop :=
  ∀ (rd ra rb : Reg) (ctx : Ctx) (s : State), s.locked = true → (s.bank ctx).Valid →
    (s.getF ra).toNat * (s.getF rb).toNat < (s.bank ctx).m.toNat * 2 ^ 256 →
    ∃ t, exec (.montmul rd ra rb ctx) s = .next t ∧ (t.getF rd).toNat < (s.bank ctx).m.toNat ∧
      (t.getF rd).toNat * 2 ^ 256 % (s.bank ctx).m.toNat =
        (s.getF ra).toNat * (s.getF rb).toNat % (s.bank ctx).m.toNat

/-- TOMONT writes the product with `R2` and nothing else (R147). -/
def Obligations.TomontWritesMontgomeryForm : Prop :=
  ∀ (rd ra : Reg) (ctx : Ctx) (s : State),
    decode (formR 0x0B rd ra 0 0 ctx.bit) = .ok (.tomont rd ra ctx) ∧
    (s.locked = true → exec (.tomont rd ra ctx) s = .next { s with
      f := s.f.set rd.val (montmul (s.getF ra) (s.bank ctx).r2 (s.bank ctx))
      err := .ok }) ∧
    ((s.bank ctx).Valid →
      (montmul (s.getF ra) (s.bank ctx).r2 (s.bank ctx)).toNat =
        (s.getF ra).toNat * 2 ^ 256 % (s.bank ctx).m.toNat) ∧
    (s.locked = false → exec (.tomont rd ra ctx) s = .next { s with err := .notConfigured })

/-- FROMMONT writes the product with 1 and nothing else; with a valid bank that is the canonical `x·R⁻¹ mod m` for every
source `x`, and `one` maps to 1 (R148). -/
def Obligations.FrommontWritesStandardForm : Prop :=
  ∀ (rd ra : Reg) (ctx : Ctx) (s : State),
    decode (formR 0x0C rd ra 0 0 ctx.bit) = .ok (.frommont rd ra ctx) ∧
    (s.locked = true → exec (.frommont rd ra ctx) s = .next { s with
      f := s.f.set rd.val (montmul (s.getF ra) 1 (s.bank ctx))
      err := .ok }) ∧
    ((s.bank ctx).Valid →
      (montmul (s.getF ra) 1 (s.bank ctx)).toNat < (s.bank ctx).m.toNat ∧
      (montmul (s.getF ra) 1 (s.bank ctx)).toNat * 2 ^ 256 % (s.bank ctx).m.toNat =
        (s.getF ra).toNat % (s.bank ctx).m.toNat ∧
      montmul (montOne (s.bank ctx)) 1 (s.bank ctx) = 1) ∧
    (s.locked = false → exec (.frommont rd ra ctx) s = .next { s with err := .notConfigured })

/-- With a valid bank: FROMMONT after TOMONT and TOMONT after FROMMONT are the identity on a canonical source (R148). The
domain algebra (R149): on registers that hold `[x]` and `[y]`, MONTMUL, MODADD, MODSUB and FINV leave `[x·y]`, `[x + y]`,
`[x - y]` and, for a prime modulus, `[x⁻¹]`; MONTMUL of `[x]` and a standard-domain `y` leaves `x·y mod m`; `[0] = 0`. -/
def Obligations.DomainConversionsAndAlgebra : Prop :=
  ∀ (rd ra rb re : Reg) (ctx : Ctx) (s : State) (c : Bank), c = s.bank ctx → s.locked = true → c.Valid →
    (Canonical c (s.getF ra) →
      (∃ t u, exec (.tomont rd ra ctx) s = .next t ∧ exec (.frommont re rd ctx) t = .next u ∧
        u.getF re = s.getF ra) ∧
      ∃ t u, exec (.frommont rd ra ctx) s = .next t ∧ exec (.tomont re rd ctx) t = .next u ∧
        u.getF re = s.getF ra) ∧
    (∀ x y : Nat, x < c.m.toNat → y < c.m.toNat → s.getF ra = montForm c x →
      (s.getF rb = montForm c y →
        (∃ t, exec (.montmul rd ra rb ctx) s = .next t ∧ t.getF rd = montForm c (x * y % c.m.toNat)) ∧
        (∃ t, exec (.modadd rd ra rb ctx) s = .next t ∧ t.getF rd = montForm c ((x + y) % c.m.toNat)) ∧
        ∃ t, exec (.modsub rd ra rb ctx) s = .next t ∧
          t.getF rd = montForm c ((x + (c.m.toNat - y)) % c.m.toNat)) ∧
      ((s.getF rb).toNat = y →
        ∃ t, exec (.montmul rd ra rb ctx) s = .next t ∧ (t.getF rd).toNat = x * y % c.m.toNat) ∧
      (c.m.toNat.Prime → x * y % c.m.toNat = 1 →
        ∃ t, exec (.finv rd ra ctx) s = .next t ∧ t.err = .ok ∧ t.getF rd = montForm c y)) ∧
    (∀ x : Nat, x < c.m.toNat → (montForm c x).toNat = x * 2 ^ 256 % c.m.toNat) ∧
    montForm c 0 = 0

/-- Import then export of one register gives the string back, when its integer is below the modulus of a valid bank
(R141). -/
def Obligations.ImportExportRoundTrip : Prop :=
  ∀ (r : Reg) (ctx : Ctx) (s : State), s.locked = true → (s.bank ctx).Valid →
    (be32 s.dbuf).toNat < (s.bank ctx).m.toNat →
    ∃ t u, exec (.frombytes r ctx) s = .next t ∧ exec (.tobytes r ctx) t = .next u ∧ u.dbuf = s.dbuf ∧ u.err = .ok

/-- MODADD writes `fadd`: the sum less the modulus once if it is at least the modulus, low 256 bits; and no flag; in
contract that is the sum modulo `m` (R150, R151). -/
def Obligations.ModaddWritesModularSum : Prop :=
  ∀ (rd ra rb : Reg) (ctx : Ctx) (s : State),
    decode (formR 0x0D rd ra rb 0 ctx.bit) = .ok (.modadd rd ra rb ctx) ∧
    (s.locked = true → exec (.modadd rd ra rb ctx) s = .next { s with
      f := s.f.set rd.val (fadd (s.getF ra) (s.getF rb) (s.bank ctx))
      err := .ok }) ∧
    fadd (s.getF ra) (s.getF rb) (s.bank ctx) = BitVec.ofNat 256
      (if (s.bank ctx).m.toNat ≤ (s.getF ra).toNat + (s.getF rb).toNat
       then (s.getF ra).toNat + (s.getF rb).toNat - (s.bank ctx).m.toNat
       else (s.getF ra).toNat + (s.getF rb).toNat) ∧
    (s.locked = true → Canonical (s.bank ctx) (s.getF ra) → Canonical (s.bank ctx) (s.getF rb) →
      ∃ t, exec (.modadd rd ra rb ctx) s = .next t ∧
        (t.getF rd).toNat = ((s.getF ra).toNat + (s.getF rb).toNat) % (s.bank ctx).m.toNat) ∧
    (s.locked = false → exec (.modadd rd ra rb ctx) s = .next { s with err := .notConfigured })

/-- MODSUB writes `fsub`: the wrapped difference, plus the modulus if there was a borrow; and no flag; in contract that is
the difference modulo `m` (R152, R153). -/
def Obligations.ModsubWritesModularDifference : Prop :=
  ∀ (rd ra rb : Reg) (ctx : Ctx) (s : State),
    decode (formR 0x0E rd ra rb 0 ctx.bit) = .ok (.modsub rd ra rb ctx) ∧
    (s.locked = true → exec (.modsub rd ra rb ctx) s = .next { s with
      f := s.f.set rd.val (fsub (s.getF ra) (s.getF rb) (s.bank ctx))
      err := .ok }) ∧
    fsub (s.getF ra) (s.getF rb) (s.bank ctx) =
      (if (s.getF ra).toNat < (s.getF rb).toNat then s.getF ra - s.getF rb + (s.bank ctx).m
       else s.getF ra - s.getF rb) ∧
    (s.locked = true → Canonical (s.bank ctx) (s.getF ra) → Canonical (s.bank ctx) (s.getF rb) →
      ∃ t, exec (.modsub rd ra rb ctx) s = .next t ∧ (t.getF rd).toNat < (s.bank ctx).m.toNat ∧
        ((t.getF rd).toNat + (s.getF rb).toNat) % (s.bank ctx).m.toNat = (s.getF ra).toNat) ∧
    (s.locked = false → exec (.modsub rd ra rb ctx) s = .next { s with err := .notConfigured })

/-- `finv` is the square-and-multiply-always loop over all 256 exponent bits, most significant first (R154). -/
def Obligations.FinvFollowsSchedule : Prop :=
  ∀ (x : Elem) (c : Bank), ∃ r : Nat → Elem, r 0 = montmul 1 c.r2 c ∧
    (∀ j, j < 256 → r (j + 1) =
      if (c.m - 2).getLsbD (255 - j) = true then montmul (montmul (r j) (r j) c) x c else montmul (r j) (r j) c) ∧
    finv x c = r 256

/-- FINV writes the power `finv`, or 0 for a zero operand, and reports that case in `ERR` and in no flag, in every bank
(R154, R155, R214); `finv` of zero is that 0 in every bank whose modulus is not 2 (log entry 6). -/
def Obligations.FinvWritesAndReportsZero : Prop :=
  ∀ (rd ra : Reg) (ctx : Ctx) (s : State),
    decode (formR 0x0F rd ra 0 0 ctx.bit) = .ok (.finv rd ra ctx) ∧
    (s.locked = true → s.getF ra ≠ 0 → exec (.finv rd ra ctx) s = .next { s with
      f := s.f.set rd.val (finv (s.getF ra) (s.bank ctx))
      err := .ok }) ∧
    (s.locked = true → s.getF ra = 0 → exec (.finv rd ra ctx) s = .next { s with
      f := s.f.set rd.val 0
      err := .curveOperationFailure }) ∧
    ((s.bank ctx).m ≠ 2 → finv 0 (s.bank ctx) = 0) ∧
    (s.locked = false → exec (.finv rd ra ctx) s = .next { s with err := .notConfigured })

/-- For a valid prime context and a non-zero canonical operand, FINV leaves the inverse, in place or not: the product of
the operand and the result is `one`, and MONTMUL of the two registers gives it (R155). -/
def Obligations.FinvInvertsInContract : Prop :=
  ∀ (rd ra re : Reg) (ctx : Ctx) (s : State), s.locked = true → (s.bank ctx).Valid → (s.bank ctx).m.toNat.Prime →
    Canonical (s.bank ctx) (s.getF ra) → s.getF ra ≠ 0 →
    ∃ t, exec (.finv rd ra ctx) s = .next t ∧ t.err = .ok ∧ Canonical (s.bank ctx) (t.getF rd) ∧
      montmul (s.getF ra) (t.getF rd) (s.bank ctx) = montmul 1 (s.bank ctx).r2 (s.bank ctx) ∧
      (montmul 1 (s.bank ctx).r2 (s.bank ctx)).toNat = 2 ^ 256 % (s.bank ctx).m.toNat ∧
      (rd ≠ ra → ∃ u, exec (.montmul re ra rd ctx) t = .next u ∧
        u.getF re = montmul 1 (s.bank ctx).r2 (s.bank ctx))

/-- The pseudo-instructions MOV, CLR, SETONE and FNEG do what R105 says of them. -/
def Obligations.PseudoInstructionsExpand : Prop :=
  (∀ (rd ra : Reg) (s : State),
    exec (.cmov rd ra .always) s = .next { s with f := s.f.set rd.val (s.getF ra), err := .ok }) ∧
  (∀ (rd : Reg) (s : State), exec (.setsmall rd 0) s = .next { s with f := s.f.set rd.val 0, err := .ok }) ∧
  (∀ (rd : Reg) (ctx : Ctx) (s : State), s.locked = true →
    ∃ t u, exec (.setsmall rd 1) s = .next t ∧ exec (.tomont rd rd ctx) t = .next u ∧
      u.getF rd = montmul 1 (s.bank ctx).r2 (s.bank ctx) ∧ u.err = .ok) ∧
  ∀ (rd ra : Reg) (ctx : Ctx) (s : State), s.locked = true → rd ≠ ra → Canonical (s.bank ctx) (s.getF ra) →
    ∃ t u, exec (.sub rd ra ra) s = .next t ∧ exec (.modsub rd rd ra ctx) t = .next u ∧ u.bw = false ∧ u.err = .ok ∧
      (u.getF rd).toNat = ((s.bank ctx).m.toNat - (s.getF ra).toNat) % (s.bank ctx).m.toNat

/-! ### Curve commands -/

/-- PDBL writes the triple of `pdbl`, which in every bank is what the steps of R172 compute, and `INF`, and nothing else;
infinity and a point with `Y = 0` give infinity in every bank; a base of 14 or 15, or `ctx = 1`, is illegal (R172, R173). -/
def Obligations.PdblWritesDouble : Prop :=
  ∀ (rd ra : Reg) (s : State),
    (rd.val ≤ 13 → ra.val ≤ 13 → decode (formR 0x10 rd ra 0 0 0) = .ok (.pdbl rd ra)) ∧
    (rd.val ≤ 13 → ra.val ≤ 13 → s.locked = true →
      ∃ p, p = pdbl s.ctxP s.ctxA { x := s.getF ra, y := s.getF (ra + 1), z := s.getF (ra + 2) } ∧
        PdblSteps s.ctxP s.ctxA { x := s.getF ra, y := s.getF (ra + 1), z := s.getF (ra + 2) } p ∧
        (s.getF (ra + 2) = 0 ∨ s.getF (ra + 1) = 0 → p.z = 0) ∧
        exec (.pdbl rd ra) s = .next { s with
          f := ((s.f.set rd.val p.x).set (rd + 1).val p.y).set (rd + 2).val p.z
          inf := decide (p.z = 0)
          err := .ok }) ∧
    (rd.val ≤ 13 → ra.val ≤ 13 → s.locked = false → exec (.pdbl rd ra) s = .next { s with err := .notConfigured }) ∧
    (13 < rd.val ∨ 13 < ra.val → (∀ i, decode (formR 0x10 rd ra 0 0 0) ≠ .ok i) ∧
      exec (.pdbl rd ra) s = .next { s with err := .illegalCommand }) ∧
    (∀ i, decode (formR 0x10 rd ra 0 0 1) ≠ .ok i)

/-- In contract PDBL of a triple that represents a point leaves a triple that represents its double, and `INF` says
whether that is infinity (R174); the registers hold exactly the values of the polynomials of R172. -/
def Obligations.PdblRepresentsDouble : Prop :=
  ∀ (p : Nat) [Fact p.Prime] (a b : ZMod p) (P : (shortCurve p a b).Point) (rd ra : Reg) (s : State),
    rd.val ≤ 13 → ra.val ≤ 13 → s.locked = true → CurveValid s.ctxP s.ctxA p a b → RepTriple p (s.getTriple ra) P →
    ∃ t, exec (.pdbl rd ra) s = .next t ∧ RepTriple p (t.getTriple rd) (P + P) ∧ (t.inf = true ↔ P + P = 0) ∧
      ∀ X Y Z M S : ZMod p, X = stdVal p (s.getF ra) → Y = stdVal p (s.getF (ra + 1)) →
        Z = stdVal p (s.getF (ra + 2)) → M = 3 * X ^ 2 + a * Z ^ 4 → S = 4 * X * Y ^ 2 →
        stdVal p (t.getF rd) = M ^ 2 - 2 * S ∧
        stdVal p (t.getF (rd + 1)) = M * (S - (M ^ 2 - 2 * S)) - 8 * Y ^ 4 ∧
        stdVal p (t.getF (rd + 2)) = 2 * Y * Z

/-- PADD writes the triple of `padd`, which in every bank is what the steps and the selections of R175 compute, and `INF`,
and nothing else; a base of 14 or 15, or `ctx = 1`, is illegal (R175, R176). -/
def Obligations.PaddWritesSum : Prop :=
  ∀ (rd ra rb : Reg) (s : State),
    (rd.val ≤ 13 → ra.val ≤ 13 → rb.val ≤ 13 → decode (formR 0x11 rd ra rb 0 0) = .ok (.padd rd ra rb)) ∧
    (rd.val ≤ 13 → ra.val ≤ 13 → rb.val ≤ 13 → s.locked = true →
      ∃ p, p = padd s.ctxP s.ctxA { x := s.getF ra, y := s.getF (ra + 1), z := s.getF (ra + 2) }
          { x := s.getF rb, y := s.getF (rb + 1), z := s.getF (rb + 2) } ∧
        PaddSteps s.ctxP s.ctxA { x := s.getF ra, y := s.getF (ra + 1), z := s.getF (ra + 2) }
          { x := s.getF rb, y := s.getF (rb + 1), z := s.getF (rb + 2) } p ∧
        exec (.padd rd ra rb) s = .next { s with
          f := ((s.f.set rd.val p.x).set (rd + 1).val p.y).set (rd + 2).val p.z
          inf := decide (p.z = 0)
          err := .ok }) ∧
    (rd.val ≤ 13 → ra.val ≤ 13 → rb.val ≤ 13 → s.locked = false →
      exec (.padd rd ra rb) s = .next { s with err := .notConfigured }) ∧
    (13 < rd.val ∨ 13 < ra.val ∨ 13 < rb.val → (∀ i, decode (formR 0x11 rd ra rb 0 0) ≠ .ok i) ∧
      exec (.padd rd ra rb) s = .next { s with err := .illegalCommand }) ∧
    (∀ i, decode (formR 0x11 rd ra rb 0 1) ≠ .ok i)

/-- Adding infinity, in any bank whatever: `padd(P, infinity)` is the registers of `P` unchanged, `padd(infinity, P)`
those of `P`, and `padd(infinity, infinity)` those of the second operand (R175). -/
def Obligations.PaddInfinityIsIdentity : Prop :=
  ∀ (rd ra rb : Reg) (s : State), rd.val ≤ 13 → ra.val ≤ 13 → rb.val ≤ 13 → s.locked = true →
    (s.getF (rb + 2) = 0 → s.getF (ra + 2) ≠ 0 →
      ∃ t, exec (.padd rd ra rb) s = .next t ∧ t.getTriple rd = s.getTriple ra ∧ t.inf = false) ∧
    (s.getF (ra + 2) = 0 →
      ∃ t, exec (.padd rd ra rb) s = .next t ∧ t.getTriple rd = s.getTriple rb ∧
        t.inf = decide (s.getF (rb + 2) = 0))

/-- In contract PADD of triples that represent points leaves a triple that represents their sum, in every case, and
`INF` says whether that is infinity (R177); for distinct finite points the registers hold exactly the values of the
polynomials of R175. -/
def Obligations.PaddRepresentsSum : Prop :=
  ∀ (p : Nat) [Fact p.Prime] (a b : ZMod p) (P Q : (shortCurve p a b).Point) (rd ra rb : Reg) (s : State),
    rd.val ≤ 13 → ra.val ≤ 13 → rb.val ≤ 13 → s.locked = true → CurveValid s.ctxP s.ctxA p a b →
    RepTriple p (s.getTriple ra) P → RepTriple p (s.getTriple rb) Q →
    ∃ t, exec (.padd rd ra rb) s = .next t ∧ RepTriple p (t.getTriple rd) (P + Q) ∧ (t.inf = true ↔ P + Q = 0) ∧
      (P ≠ 0 → Q ≠ 0 → P ≠ Q →
        ∀ X1 Y1 Z1 X2 Y2 Z2 U S H R : ZMod p,
          X1 = stdVal p (s.getF ra) → Y1 = stdVal p (s.getF (ra + 1)) → Z1 = stdVal p (s.getF (ra + 2)) →
          X2 = stdVal p (s.getF rb) → Y2 = stdVal p (s.getF (rb + 1)) → Z2 = stdVal p (s.getF (rb + 2)) →
          U = X1 * Z2 ^ 2 → S = Y1 * Z2 ^ 3 → H = X2 * Z1 ^ 2 - U → R = Y2 * Z1 ^ 3 - S →
          stdVal p (t.getF rd) = R ^ 2 - H ^ 3 - 2 * U * H ^ 2 ∧
          stdVal p (t.getF (rd + 1)) = R * (U * H ^ 2 - (R ^ 2 - H ^ 3 - 2 * U * H ^ 2)) - S * H ^ 3 ∧
          stdVal p (t.getF (rd + 2)) = H * Z1 * Z2)

/-- In contract PADD commutes after TOAFFINE: the two orders give the same affine pair and the same `INF` (R177). -/
def Obligations.PaddCommutesAfterToaffine : Prop :=
  ∀ (p : Nat) [Fact p.Prime] (a b : ZMod p) (P Q : (shortCurve p a b).Point) (rd ra rb re : Reg) (s : State),
    rd.val ≤ 13 → ra.val ≤ 13 → rb.val ≤ 13 → re.val ≤ 14 → s.locked = true → CurveValid s.ctxP s.ctxA p a b →
    RepTriple p (s.getTriple ra) P → RepTriple p (s.getTriple rb) Q →
    ∃ t t' u u', exec (.padd rd ra rb) s = .next t ∧ exec (.padd rd rb ra) s = .next t' ∧
      exec (.toaffine re rd) t = .next u ∧ exec (.toaffine re rd) t' = .next u' ∧
      u.getPair re = u'.getPair re ∧ u.inf = u'.inf

/-- TOAFFINE writes the pair of `toaff`, which in every bank is what the steps of R178 compute, and `INF`, and nothing else;
a source with `Z = 0` gives the sentinel and no failure; out-of-bounds bases are illegal (R178, R179). -/
def Obligations.ToaffineWritesPair : Prop :=
  ∀ (rd ra : Reg) (s : State),
    (rd.val ≤ 14 → ra.val ≤ 13 → decode (formR 0x12 rd ra 0 0 0) = .ok (.toaffine rd ra)) ∧
    (rd.val ≤ 14 → ra.val ≤ 13 → s.locked = true →
      ∃ q, q = (toaff s.ctxP { x := s.getF ra, y := s.getF (ra + 1), z := s.getF (ra + 2) }).1 ∧
        ToaffSteps s.ctxP { x := s.getF ra, y := s.getF (ra + 1), z := s.getF (ra + 2) } q
          (toaff s.ctxP { x := s.getF ra, y := s.getF (ra + 1), z := s.getF (ra + 2) }).2 ∧
        (s.getF (ra + 2) = 0 → q.x = 0 ∧ q.y = 0) ∧
        exec (.toaffine rd ra) s = .next { s with
          f := (s.f.set rd.val q.x).set (rd + 1).val q.y
          inf := decide (s.getF (ra + 2) = 0)
          err := .ok }) ∧
    (rd.val ≤ 14 → ra.val ≤ 13 → s.locked = false →
      exec (.toaffine rd ra) s = .next { s with err := .notConfigured }) ∧
    (14 < rd.val ∨ 13 < ra.val → (∀ i, decode (formR 0x12 rd ra 0 0 0) ≠ .ok i) ∧
      exec (.toaffine rd ra) s = .next { s with err := .illegalCommand }) ∧
    (∀ i, decode (formR 0x12 rd ra 0 0 1) ≠ .ok i)

/-- In contract TOAFFINE of a triple that represents a point leaves the point's affine pair, the same for every
equivalent triple (R180). -/
def Obligations.ToaffineGivesAffinePoint : Prop :=
  ∀ (p : Nat) [Fact p.Prime] (a b : ZMod p) (P : (shortCurve p a b).Point) (rd ra : Reg) (s : State),
    rd.val ≤ 14 → ra.val ≤ 13 → s.locked = true → CurveValid s.ctxP s.ctxA p a b → RepTriple p (s.getTriple ra) P →
    ∃ t, exec (.toaffine rd ra) s = .next t ∧ RepPair p (t.getPair rd) P ∧ (t.inf = true ↔ P = 0)

/-- SCALARMUL writes the pair of `smul` and `INF`, and nothing else; out-of-bounds pair bases are illegal (R182). -/
def Obligations.ScalarmulWritesPair : Prop :=
  ∀ (rd ra rb : Reg) (s : State),
    (rd.val ≤ 14 → rb.val ≤ 14 → decode (formR 0x13 rd ra rb 0 0) = .ok (.scalarmul rd ra rb)) ∧
    (rd.val ≤ 14 → rb.val ≤ 14 → s.locked = true →
      ∃ q, q = smul s.ctxP s.ctxA (s.getF ra) { x := s.getF rb, y := s.getF (rb + 1) } ∧
        exec (.scalarmul rd ra rb) s = .next { s with
          f := (s.f.set rd.val q.1.x).set (rd + 1).val q.1.y
          inf := q.2
          err := .ok }) ∧
    (rd.val ≤ 14 → rb.val ≤ 14 → s.locked = false →
      exec (.scalarmul rd ra rb) s = .next { s with err := .notConfigured }) ∧
    (14 < rd.val ∨ 14 < rb.val → (∀ i, decode (formR 0x13 rd ra rb 0 0) ≠ .ok i) ∧
      exec (.scalarmul rd ra rb) s = .next { s with err := .illegalCommand }) ∧
    (∀ i, decode (formR 0x13 rd ra rb 0 1) ≠ .ok i)

/-- `smul` is the double-and-add-always ladder over all 256 bits, most significant first, from (0, 0, 0), with the base
pair converted as R181 says, followed by `toaff` (R181). -/
def Obligations.SmulFollowsLadder : Prop :=
  ∀ (c : Bank) (a k : Elem) (q : Pair), ∃ acc : Nat → Triple, ∃ base : Triple,
    base = { x := q.x, y := q.y, z := if q.x = 0 ∧ q.y = 0 then 0 else montmul 1 c.r2 c } ∧
    acc 0 = { x := 0, y := 0, z := 0 } ∧
    (∀ j, j < 256 → acc (j + 1) =
      if k.getLsbD (255 - j) = true then padd c a (pdbl c a (acc j)) base else pdbl c a (acc j)) ∧
    smul c a k q = toaff c (acc 256)

/-- In contract SCALARMUL computes the multiple `[k]P` of the base point, for every 256-bit scalar, or the sentinel with
`INF = 1` when it is infinity (R183). -/
def Obligations.ScalarmulComputesMultiple : Prop :=
  ∀ (p : Nat) [Fact p.Prime] (a b : ZMod p) (P : (shortCurve p a b).Point) (rd ra rb : Reg) (s : State),
    rd.val ≤ 14 → rb.val ≤ 14 → s.locked = true → CurveValid s.ctxP s.ctxA p a b → RepPair p (s.getPair rb) P →
    ∃ t, exec (.scalarmul rd ra rb) s = .next t ∧ RepPair p (t.getPair rd) ((s.getF ra).toNat • P) ∧
      (t.inf = true ↔ (s.getF ra).toNat • P = 0)

/-- In any bank whatever, a zero scalar gives the sentinel for every base, and the sentinel as base gives the sentinel for
every scalar, with `INF = 1` and no failure; with a valid bank, prime or not, the scalar 1 returns the canonical base pair
itself (R182, corner cases). -/
def Obligations.ScalarmulCornerCases : Prop :=
  ∀ (rd ra rb : Reg) (s : State), rd.val ≤ 14 → rb.val ≤ 14 → s.locked = true →
    (s.getF ra = 0 ∨ (s.getF rb = 0 ∧ s.getF (rb + 1) = 0) →
      ∃ t, exec (.scalarmul rd ra rb) s = .next t ∧ t.getF rd = 0 ∧ t.getF (rd + 1) = 0 ∧ t.inf = true ∧ t.err = .ok) ∧
    (s.ctxP.Valid → Canonical s.ctxP (s.getF rb) → Canonical s.ctxP (s.getF (rb + 1)) → s.getF ra = 1 →
      ∃ t, exec (.scalarmul rd ra rb) s = .next t ∧ t.getF rd = s.getF rb ∧ t.getF (rd + 1) = s.getF (rb + 1) ∧
        (t.inf = true ↔ s.getF rb = 0 ∧ s.getF (rb + 1) = 0))

/-! ### System commands -/

/-- NOP only clears `ERR`, locked or unlocked (R200). -/
def Obligations.NopOnlyClearsErr : Prop :=
  decode 0x00000000 = .ok .nop ∧
  (∀ w : Word32, w.extractLsb' 24 8 = 0 → w ≠ 0 → ∀ i, decode w ≠ .ok i) ∧
  ∀ s : State, exec .nop s = .next { s with err := .ok }

/-- LOCK sets `LOCKED` with no validation of the banks and changes nothing else; in the state it leaves a host write to a
context offset is ignored, and no command is turned away as not configured (R201). -/
def Obligations.LockFreezesContexts : Prop :=
  decode 0x1E000000 = .ok .lock ∧
  ∀ s : State, ∃ t, exec .lock s = .next t ∧ t = { s with locked := true, err := .ok } ∧
    hostRead 0x004 t = 0x00000001 ∧
    (∀ (off : Nat) (v : Word32), off % 4 = 0 → ContextOffset off → hostWrite off v t = .next t) ∧
    (∀ (w : Word32) (u : State), runCommand w t = .next u → u.err ≠ .notConfigured) ∧
    (s.locked = true → exec .lock s = .next { s with err := .ok })

/-- ZEROIZE clears registers, flags and buffer and leaves `LOCKED` and the banks; the state after it is the reset state
but for those (R202). -/
def Obligations.ZeroizeClearsAllButConfiguration : Prop :=
  decode 0x1F000000 = .ok .zeroize ∧
  ∀ s : State, ∃ t, exec .zeroize s = .next t ∧
    (∀ r : Reg, t.getF r = 0) ∧ t.cy = false ∧ t.bw = false ∧ t.tf = false ∧ t.inf = false ∧
    (∀ k : Fin 32, t.dbuf[k.val] = 0) ∧ t.err = .ok ∧
    t = { State.reset with
      locked := s.locked, ctxP := s.ctxP, ctxA := s.ctxA, ctxN := s.ctxN, pending := s.pending, replies := s.replies } ∧
    exec .zeroize t = .next t

/-! ### The host port -/

/-- `HostRead`, row by row, with the number of every result code (R211), and that a read changes no state of the engine: the step only records the value it returns
(R62; the list of accesses and the record are the model's, log entries 1 and 2). -/
def Obligations.HostReadFollowsMap : Prop :=
  (∀ (s : State) (off : Nat) (rest : List HostAction), off % 4 = 0 → off ≤ 0x3FC →
    s.pending = .read 32 off :: rest →
    step s = .next { s with pending := rest, replies := hostRead off s :: s.replies }) ∧
  ∀ s : State,
    hostRead 0x000 s = 0 ∧
    (hostRead 0x004 s).toNat = s.err.code.toNat * 16 + s.locked.toNat ∧
    (ErrCode.ok.code = 0 ∧ ErrCode.outOfRange.code = 1 ∧ ErrCode.curveOperationFailure.code = 2 ∧
      ErrCode.verifierMismatch.code = 3 ∧ ErrCode.resourceFailure.code = 4 ∧ ErrCode.illegalCommand.code = 5 ∧
      ErrCode.notConfigured.code = 6) ∧
    (hostRead 0x008 s).toNat = s.cy.toNat + 2 * s.bw.toNat + 4 * s.tf.toNat + 8 * s.inf.toNat ∧
    (∀ w : Fin 8, (hostRead (0x040 + 4 * w.val) s).toNat =
      (s.dbuf[4 * w.val]).toNat + 2 ^ 8 * (s.dbuf[4 * w.val + 1]).toNat + 2 ^ 16 * (s.dbuf[4 * w.val + 2]).toNat +
        2 ^ 24 * (s.dbuf[4 * w.val + 3]).toNat) ∧
    (∀ (c : Ctx) (j : Fin 8), hostRead (0x100 + 0x80 * c.bit.toNat + 4 * j.val) s = limb (s.bank c).m j) ∧
    (∀ (c : Ctx) (j : Fin 8), hostRead (0x120 + 0x80 * c.bit.toNat + 4 * j.val) s = limb (s.bank c).r2 j) ∧
    (∀ c : Ctx, hostRead (0x140 + 0x80 * c.bit.toNat) s = (s.bank c).m0inv) ∧
    (∀ j : Fin 8, hostRead (0x160 + 4 * j.val) s = limb s.ctxA j) ∧
    (∀ (i : Reg) (j : Fin 8), hostRead (0x200 + 0x20 * i.val + 4 * j.val) s = limb (s.getF i) j) ∧
    ∀ off, off % 4 = 0 → ReservedOffset off → hostRead off s = 0

/-- `HostWrite`, row by row (R63): a `CMD` write executes the command; `DBUF`, field registers and unlocked context
fields store the word; every other write is ignored and records no error. That a step takes the write from the list of
accesses is the model's (log entry 1). -/
def Obligations.HostWriteFollowsMap : Prop :=
  (∀ (s : State) (off : Nat) (v : Word32) (rest : List HostAction), off % 4 = 0 → off ≤ 0x3FC →
    s.pending = .write 32 off v :: rest → step s = hostWrite off v { s with pending := rest }) ∧
  ∀ (s : State) (v : Word32),
    hostWrite 0x000 v s = runCommand v s ∧
    hostWrite 0x004 v s = .next s ∧ hostWrite 0x008 v s = .next s ∧
    (∀ w : Fin 8, ∃ d : Vector Byte 32, hostWrite (0x040 + 4 * w.val) v s = .next { s with dbuf := d } ∧
      ∀ k : Fin 32, d[k.val] = if k.val / 4 = w.val then v.extractLsb' (8 * (k.val % 4)) 8 else s.dbuf[k.val]) ∧
    (∀ (c : Ctx) (j : Fin 8), ∃ x : Elem,
      x.toNat = (s.bank c).m.toNat - (limb (s.bank c).m j).toNat * 2 ^ (32 * j.val) + v.toNat * 2 ^ (32 * j.val) ∧
      hostWrite (0x100 + 0x80 * c.bit.toNat + 4 * j.val) v s =
        .next (if s.locked = true then s else s.setBank c { s.bank c with m := x })) ∧
    (∀ (c : Ctx) (j : Fin 8), ∃ x : Elem,
      x.toNat = (s.bank c).r2.toNat - (limb (s.bank c).r2 j).toNat * 2 ^ (32 * j.val) + v.toNat * 2 ^ (32 * j.val) ∧
      hostWrite (0x120 + 0x80 * c.bit.toNat + 4 * j.val) v s =
        .next (if s.locked = true then s else s.setBank c { s.bank c with r2 := x })) ∧
    (∀ c : Ctx, hostWrite (0x140 + 0x80 * c.bit.toNat) v s =
      .next (if s.locked = true then s else s.setBank c { s.bank c with m0inv := v })) ∧
    (∀ j : Fin 8, ∃ x : Elem,
      x.toNat = s.ctxA.toNat - (limb s.ctxA j).toNat * 2 ^ (32 * j.val) + v.toNat * 2 ^ (32 * j.val) ∧
      hostWrite (0x160 + 4 * j.val) v s = .next (if s.locked = true then s else { s with ctxA := x })) ∧
    (∀ (i : Reg) (j : Fin 8), ∃ x : Elem,
      x.toNat = (s.getF i).toNat - (limb (s.getF i) j).toNat * 2 ^ (32 * j.val) + v.toNat * 2 ^ (32 * j.val) ∧
      hostWrite (0x200 + 0x20 * i.val + 4 * j.val) v s = .next { s with f := s.f.set i.val x }) ∧
    ∀ off, off % 4 = 0 → ReservedOffset off → hostWrite off v s = .next s

/-- Reading after writing through the port: a stored word reads back, every other word of the window is unchanged, and a
write that is not stored changes nothing at all (R63, R67, R69). -/
def Obligations.PortReadAfterWrite : Prop :=
  ∀ (s : State) (off : Nat) (v : Word32), off % 4 = 0 → 0 < off → off ≤ 0x3FC →
    ∃ t, hostWrite off v s = .next t ∧ (StoredOffset s off → hostRead off t = v) ∧ (¬ StoredOffset s off → t = s) ∧
      ∀ off', off' % 4 = 0 → off' ≤ 0x3FC → off' ≠ off → hostRead off' t = hostRead off' s

/-- An access that is not a naturally aligned 32-bit access inside the window is refused, and no other access is
(R61, R68). -/
def Obligations.OnlyPortAccessesAccepted : Prop :=
  ∀ (s : State) (bits off : Nat) (v : Word32) (rest : List HostAction),
    ((bits ≠ 32 ∨ off % 4 ≠ 0 ∨ 0x3FC < off) →
      (∃ r, step { s with pending := .read bits off :: rest } = .refused r) ∧
      ∃ r, step { s with pending := .write bits off v :: rest } = .refused r) ∧
    (bits = 32 → off % 4 = 0 → off ≤ 0x3FC →
      (∃ t, step { s with pending := .read bits off :: rest } = .next t) ∧
      ∃ t, step { s with pending := .write bits off v :: rest } = .next t)

/-- After TOBYTES the host reads the value's limbs, last first, each with its bytes swapped (R66). -/
def Obligations.TobytesSeenByteSwapped : Prop :=
  ∀ (ra : Reg) (ctx : Ctx) (s : State), s.locked = true →
    ∃ t, exec (.tobytes ra ctx) s = .next t ∧
      ∀ w : Fin 8, hostRead (0x040 + 4 * w.val) t =
        byteswap32 (limb (montmul (s.getF ra) 1 (s.bank ctx)) ⟨7 - w.val, by omega⟩)

/-! ### Reset -/

/-- After reset every bit of architectural state is 0 (R50). -/
def Obligations.ResetStateIsZero : Prop :=
  (∀ r : Reg, State.reset.getF r = 0) ∧ State.reset.cy = false ∧ State.reset.bw = false ∧ State.reset.tf = false ∧
    State.reset.inf = false ∧ State.reset.locked = false ∧ State.reset.err.code = 0 ∧
    (∀ k : Fin 32, State.reset.dbuf[k.val] = 0) ∧
    (∀ c : Ctx, (State.reset.bank c).m = 0 ∧ (State.reset.bank c).r2 = 0 ∧ (State.reset.bank c).m0inv = 0) ∧
    State.reset.ctxA = 0

/-- `Reset` at any time gives the reset state of the engine (R240, R241); that the host's further accesses and the record of
what it has read stay is the model's choice (log entry 5). -/
def Obligations.ResetActionResetsEngine : Prop :=
  ∀ (s : State) (rest : List HostAction), s.pending = .reset :: rest →
    step s = .next { State.reset with pending := rest, replies := s.replies }

/-! ### Rules of the whole machine -/

/-- Every step keeps the result code among those MFCE writes: 3 and 4 are never written (R213). -/
def Obligations.StepKeepsErrProduced : Prop := ∀ s t : State, s.ErrProduced → step s = .next t → t.ErrProduced

/-- The reset state's result code is one that MFCE writes (R50, R213). -/
def Obligations.ResetErrProduced : Prop := State.reset.ErrProduced

/-- Once locked, `LOCKED` and both banks never change but by `Reset`: every other step, whatever the host does, leaves
them (R38, R41). -/
def Obligations.LockedConfigurationImmutable : Prop :=
  ∀ s t : State, s.locked = true → s.pending.head? ≠ some .reset → step s = .next t → t.SameConfig s

/-- Which command may write which flag, and that a command that ends in a failure changes none (R31 to R35). -/
def Obligations.FlagsWrittenOnlyByNamed : Prop :=
  ∀ (i : Instr) (s t : State), exec i s = .next t →
    (t.cy ≠ s.cy → (∃ rd ra rb, i = .add rd ra rb) ∨ i = .zeroize) ∧
    (t.bw ≠ s.bw → (∃ rd ra rb, i = .sub rd ra rb) ∨ i = .zeroize) ∧
    (t.tf ≠ s.tf → (∃ ra, i = .iszero ra) ∨ (∃ ra rb, i = .eq ra rb) ∨ i = .zeroize) ∧
    (t.inf ≠ s.inf → (∃ rd ra, i = .pdbl rd ra) ∨ (∃ rd ra rb, i = .padd rd ra rb) ∨ (∃ rd ra, i = .toaffine rd ra) ∨
      (∃ rd ra rb, i = .scalarmul rd ra rb) ∨ i = .zeroize) ∧
    (t.err ≠ .ok → t.cy = s.cy ∧ t.bw = s.bw ∧ t.tf = s.tf ∧ t.inf = s.inf)

/-- The frame of every command: a register outside its destination keeps its value; `DBUF` changes only by TOBYTES and
ZEROIZE; no command writes a context field, and only LOCK writes `LOCKED` (R24, R38, R41, R42, R103). That
the fields `pending` and `replies` are untouched is about the model's own fields, its choice (log entries 1 and 2). -/
def Obligations.CommandFrame : Prop :=
  ∀ (i : Instr) (s t : State), exec i s = .next t →
    (i ≠ .zeroize → ∀ r : Reg, r ∉ destRegs i → t.getF r = s.getF r) ∧
    ((∀ ra c, i ≠ .tobytes ra c) → i ≠ .zeroize → t.dbuf = s.dbuf) ∧
    t.ctxP = s.ctxP ∧ t.ctxA = s.ctxA ∧ t.ctxN = s.ctxN ∧ (i ≠ .lock → t.locked = s.locked) ∧
    t.pending = s.pending ∧ t.replies = s.replies

/-- A run of accesses the port accepts never stops: after as many steps as there are accesses the engine is idle
(R210, R259). That a step takes one access from the list `pending`, and that the engine is idle when the list is empty, is
the model's choice (log entries 1 and 4). -/
def Obligations.AcceptedRunCompletes : Prop :=
  ∀ s : State, (∀ a ∈ s.pending, a.Accepted) →
    ∃ t, Host.Core.run Sys2Proof.core s.pending.length s = .next t ∧ t.pending = []
end

