-- ==== Sys2Proof/Laws/State.lean ====
section
/-! SUPPORT. The small lemmas of State's updates: one per field per update. -/

namespace Sys2Proof.Machine

open Sys2Proof

/-! ### One register -/

@[simp] theorem State.setF_cy (s : State) (r : Reg) (v : Elem) : (s.setF r v).cy = s.cy := rfl
@[simp] theorem State.setF_bw (s : State) (r : Reg) (v : Elem) : (s.setF r v).bw = s.bw := rfl
@[simp] theorem State.setF_tf (s : State) (r : Reg) (v : Elem) : (s.setF r v).tf = s.tf := rfl
@[simp] theorem State.setF_inf (s : State) (r : Reg) (v : Elem) : (s.setF r v).inf = s.inf := rfl
@[simp] theorem State.setF_locked (s : State) (r : Reg) (v : Elem) : (s.setF r v).locked = s.locked := rfl
@[simp] theorem State.setF_err (s : State) (r : Reg) (v : Elem) : (s.setF r v).err = s.err := rfl
@[simp] theorem State.setF_dbuf (s : State) (r : Reg) (v : Elem) : (s.setF r v).dbuf = s.dbuf := rfl
@[simp] theorem State.setF_ctxP (s : State) (r : Reg) (v : Elem) : (s.setF r v).ctxP = s.ctxP := rfl
@[simp] theorem State.setF_ctxA (s : State) (r : Reg) (v : Elem) : (s.setF r v).ctxA = s.ctxA := rfl
@[simp] theorem State.setF_ctxN (s : State) (r : Reg) (v : Elem) : (s.setF r v).ctxN = s.ctxN := rfl
@[simp] theorem State.setF_pending (s : State) (r : Reg) (v : Elem) : (s.setF r v).pending = s.pending := rfl
@[simp] theorem State.setF_replies (s : State) (r : Reg) (v : Elem) : (s.setF r v).replies = s.replies := rfl
@[simp] theorem State.setF_f (s : State) (r : Reg) (v : Elem) : (s.setF r v).f = s.f.set r.val v := rfl

/-- Reading a register after writing one (R12, R21): no register is an alias of another. -/
theorem State.getF_setF (s : State) (r q : Reg) (v : Elem) :
    (s.setF r v).getF q = if q = r then v else s.getF q := by
  simp only [State.getF, State.setF_f, Vector.getElem_set]
  by_cases h : q = r
  · simp [h]
  · rw [if_neg h, if_neg (fun e => h (Fin.ext e.symm))]

@[simp] theorem State.getF_setF_same (s : State) (r : Reg) (v : Elem) : (s.setF r v).getF r = v := by
  simp [State.getF_setF]

theorem State.getF_setF_other (s : State) {r q : Reg} (v : Elem) (h : q ≠ r) : (s.setF r v).getF q = s.getF q := by
  simp [State.getF_setF, h]

/-- The registers and the banks of a state written out field by field. Used with `Vector.getElem_set` and
`State.f_getElem` when `simp` has unfolded an update. -/
theorem State.getF_mk (f : Vector Elem 16) (cy bw tf inf locked : Bool) (err : ErrCode) (dbuf : Vector Byte 32)
    (ctxP : Bank) (ctxA : Elem) (ctxN : Bank) (pending : List HostAction) (replies : List Word32) (r : Reg) :
    State.getF ⟨f, cy, bw, tf, inf, locked, err, dbuf, ctxP, ctxA, ctxN, pending, replies⟩ r = f[r.val] := rfl
theorem State.bank_mk (f : Vector Elem 16) (cy bw tf inf locked : Bool) (err : ErrCode) (dbuf : Vector Byte 32)
    (ctxP : Bank) (ctxA : Elem) (ctxN : Bank) (pending : List HostAction) (replies : List Word32) (c : Ctx) :
    State.bank ⟨f, cy, bw, tf, inf, locked, err, dbuf, ctxP, ctxA, ctxN, pending, replies⟩ c =
      match c with
      | .p => ctxP
      | .n => ctxN := rfl
theorem State.f_getElem (s : State) (r : Reg) : s.f[r.val] = s.getF r := rfl

/-- Registers are compared one by one. -/
theorem State.f_ext {s t : State} (h : ∀ r : Reg, s.getF r = t.getF r) : s.f = t.f := by
  apply Vector.ext
  intro i hi
  exact h ⟨i, hi⟩

/-! ### Register groups -/

@[simp] theorem State.setPair_cy (s : State) (r : Reg) (p : Pair) : (s.setPair r p).cy = s.cy := rfl
@[simp] theorem State.setPair_bw (s : State) (r : Reg) (p : Pair) : (s.setPair r p).bw = s.bw := rfl
@[simp] theorem State.setPair_tf (s : State) (r : Reg) (p : Pair) : (s.setPair r p).tf = s.tf := rfl
@[simp] theorem State.setPair_inf (s : State) (r : Reg) (p : Pair) : (s.setPair r p).inf = s.inf := rfl
@[simp] theorem State.setPair_locked (s : State) (r : Reg) (p : Pair) : (s.setPair r p).locked = s.locked := rfl
@[simp] theorem State.setPair_err (s : State) (r : Reg) (p : Pair) : (s.setPair r p).err = s.err := rfl
@[simp] theorem State.setPair_dbuf (s : State) (r : Reg) (p : Pair) : (s.setPair r p).dbuf = s.dbuf := rfl
@[simp] theorem State.setPair_ctxP (s : State) (r : Reg) (p : Pair) : (s.setPair r p).ctxP = s.ctxP := rfl
@[simp] theorem State.setPair_ctxA (s : State) (r : Reg) (p : Pair) : (s.setPair r p).ctxA = s.ctxA := rfl
@[simp] theorem State.setPair_ctxN (s : State) (r : Reg) (p : Pair) : (s.setPair r p).ctxN = s.ctxN := rfl
@[simp] theorem State.setPair_pending (s : State) (r : Reg) (p : Pair) : (s.setPair r p).pending = s.pending := rfl
@[simp] theorem State.setPair_replies (s : State) (r : Reg) (p : Pair) : (s.setPair r p).replies = s.replies := rfl

@[simp] theorem State.setTriple_cy (s : State) (r : Reg) (p : Triple) : (s.setTriple r p).cy = s.cy := rfl
@[simp] theorem State.setTriple_bw (s : State) (r : Reg) (p : Triple) : (s.setTriple r p).bw = s.bw := rfl
@[simp] theorem State.setTriple_tf (s : State) (r : Reg) (p : Triple) : (s.setTriple r p).tf = s.tf := rfl
@[simp] theorem State.setTriple_inf (s : State) (r : Reg) (p : Triple) : (s.setTriple r p).inf = s.inf := rfl
@[simp] theorem State.setTriple_locked (s : State) (r : Reg) (p : Triple) : (s.setTriple r p).locked = s.locked := rfl
@[simp] theorem State.setTriple_err (s : State) (r : Reg) (p : Triple) : (s.setTriple r p).err = s.err := rfl
@[simp] theorem State.setTriple_dbuf (s : State) (r : Reg) (p : Triple) : (s.setTriple r p).dbuf = s.dbuf := rfl
@[simp] theorem State.setTriple_ctxP (s : State) (r : Reg) (p : Triple) : (s.setTriple r p).ctxP = s.ctxP := rfl
@[simp] theorem State.setTriple_ctxA (s : State) (r : Reg) (p : Triple) : (s.setTriple r p).ctxA = s.ctxA := rfl
@[simp] theorem State.setTriple_ctxN (s : State) (r : Reg) (p : Triple) : (s.setTriple r p).ctxN = s.ctxN := rfl
@[simp] theorem State.setTriple_pending (s : State) (r : Reg) (p : Triple) :
    (s.setTriple r p).pending = s.pending := rfl
@[simp] theorem State.setTriple_replies (s : State) (r : Reg) (p : Triple) :
    (s.setTriple r p).replies = s.replies := rfl

/-- What a pair write does to each register. -/
theorem State.getF_setPair (s : State) (r q : Reg) (p : Pair) :
    (s.setPair r p).getF q = if q = r + 1 then p.y else if q = r then p.x else s.getF q := by
  simp only [State.setPair, State.getF_setF]

/-- What a triple write does to each register. -/
theorem State.getF_setTriple (s : State) (r q : Reg) (p : Triple) :
    (s.setTriple r p).getF q =
      if q = r + 2 then p.z else if q = r + 1 then p.y else if q = r then p.x else s.getF q := by
  simp only [State.setTriple, State.getF_setF]

/-- The three registers of a triple are distinct. -/
theorem Reg.add_ne (r : Reg) : r + 1 ≠ r ∧ r + 2 ≠ r ∧ r + 2 ≠ r + 1 := by
  revert r; decide

/-- A triple reads back as written. -/
@[simp] theorem State.getTriple_setTriple (s : State) (r : Reg) (p : Triple) :
    (s.setTriple r p).getTriple r = p := by
  obtain ⟨h1, h2, h3⟩ := Reg.add_ne r
  simp [State.getTriple, State.getF_setTriple, h1.symm, h2.symm, h3.symm]

/-- A pair reads back as written. -/
@[simp] theorem State.getPair_setPair (s : State) (r : Reg) (p : Pair) : (s.setPair r p).getPair r = p := by
  obtain ⟨h1, -, -⟩ := Reg.add_ne r
  simp [State.getPair, State.getF_setPair, h1.symm]

/-! ### Banks -/

@[simp] theorem State.bank_p (s : State) : s.bank .p = s.ctxP := rfl
@[simp] theorem State.bank_n (s : State) : s.bank .n = s.ctxN := rfl
@[simp] theorem State.bank_setF (s : State) (r : Reg) (v : Elem) (c : Ctx) : (s.setF r v).bank c = s.bank c := by
  cases c <;> rfl
@[simp] theorem State.bank_setBank_same (s : State) (c : Ctx) (b : Bank) : (s.setBank c b).bank c = b := by
  cases c <;> rfl
theorem State.bank_setBank_other (s : State) {c d : Ctx} (b : Bank) (h : d ≠ c) :
    (s.setBank c b).bank d = s.bank d := by
  cases c <;> cases d <;> first | rfl | exact absurd rfl h
@[simp] theorem State.setBank_f (s : State) (c : Ctx) (b : Bank) : (s.setBank c b).f = s.f := by cases c <;> rfl
@[simp] theorem State.setBank_cy (s : State) (c : Ctx) (b : Bank) : (s.setBank c b).cy = s.cy := by cases c <;> rfl
@[simp] theorem State.setBank_bw (s : State) (c : Ctx) (b : Bank) : (s.setBank c b).bw = s.bw := by cases c <;> rfl
@[simp] theorem State.setBank_tf (s : State) (c : Ctx) (b : Bank) : (s.setBank c b).tf = s.tf := by cases c <;> rfl
@[simp] theorem State.setBank_inf (s : State) (c : Ctx) (b : Bank) : (s.setBank c b).inf = s.inf := by
  cases c <;> rfl
@[simp] theorem State.setBank_locked (s : State) (c : Ctx) (b : Bank) : (s.setBank c b).locked = s.locked := by
  cases c <;> rfl
@[simp] theorem State.setBank_err (s : State) (c : Ctx) (b : Bank) : (s.setBank c b).err = s.err := by
  cases c <;> rfl
@[simp] theorem State.setBank_dbuf (s : State) (c : Ctx) (b : Bank) : (s.setBank c b).dbuf = s.dbuf := by
  cases c <;> rfl
@[simp] theorem State.setBank_ctxA (s : State) (c : Ctx) (b : Bank) : (s.setBank c b).ctxA = s.ctxA := by
  cases c <;> rfl
@[simp] theorem State.setBank_pending (s : State) (c : Ctx) (b : Bank) : (s.setBank c b).pending = s.pending := by
  cases c <;> rfl
@[simp] theorem State.setBank_replies (s : State) (c : Ctx) (b : Bank) : (s.setBank c b).replies = s.replies := by
  cases c <;> rfl

/-! ### Reset -/

@[simp] theorem State.reset_locked : State.reset.locked = false := rfl
@[simp] theorem State.reset_err : State.reset.err = .ok := rfl
@[simp] theorem State.reset_pending : State.reset.pending = [] := rfl
@[simp] theorem State.afterReset_locked (s : State) : s.afterReset.locked = false := rfl
@[simp] theorem State.afterReset_err (s : State) : s.afterReset.err = .ok := rfl
@[simp] theorem State.afterReset_pending (s : State) : s.afterReset.pending = s.pending := rfl
@[simp] theorem State.afterReset_replies (s : State) : s.afterReset.replies = s.replies := rfl
@[simp] theorem State.withFetchWord_pending (s : State) (nbits w : Nat) :
    (s.withFetchWord nbits w).pending = cmdWrite (BitVec.ofNat 32 (w % 2 ^ nbits)) :: s.pending := rfl

end Sys2Proof.Machine
end

