-- ==== Sys2Proof/Laws/Ops.lean ====
section
/-! SUPPORT. One lemma per shared operation that says what it can do: the result-code operations, the two admission
checks, the port's acceptance check, limbs and the byte buffer. -/

namespace Sys2Proof.Machine

open Sys2Proof

/-! ### Result codes and admission -/

theorem failWith_eq (k : ErrCode) (s : State) : failWith k s = .next { s with err := k } := rfl

theorem complete_eq (s : State) : complete s = .next { s with err := .ok } := rfl

@[simp] theorem whenLocked_locked {s : State} (h : s.locked = true) (run : Host.Outcome State Fault Refusal) :
    whenLocked s run = run := by
  simp [whenLocked, h]

@[simp] theorem whenLocked_unlocked {s : State} (h : s.locked = false) (run : Host.Outcome State Fault Refusal) :
    whenLocked s run = .next { s with err := .notConfigured } := by
  simp [whenLocked, h, failWith_eq]

/-- All that `whenLocked` can do. -/
theorem whenLocked_cases {s t : State} {run : Host.Outcome State Fault Refusal} (h : whenLocked s run = .next t) :
    s.locked = true ∧ run = .next t ∨ s.locked = false ∧ t = { s with err := .notConfigured } := by
  rcases Bool.eq_false_or_eq_true s.locked with hl | hl
  · exact .inl ⟨hl, by rwa [whenLocked_locked hl] at h⟩
  · rw [whenLocked_unlocked hl] at h
    exact .inr ⟨hl, by injection h with h; exact h.symm⟩

@[simp] theorem whenInBounds_true (s : State) (run : Host.Outcome State Fault Refusal) :
    whenInBounds true s run = run := rfl

@[simp] theorem whenInBounds_false (s : State) (run : Host.Outcome State Fault Refusal) :
    whenInBounds false s run = .next { s with err := .illegalCommand } := rfl

/-- All that `whenInBounds` can do. -/
theorem whenInBounds_cases {ok : Bool} {s t : State} {run : Host.Outcome State Fault Refusal}
    (h : whenInBounds ok s run = .next t) :
    ok = true ∧ run = .next t ∨ ok = false ∧ t = { s with err := .illegalCommand } := by
  cases ok with
  | true => exact .inl ⟨rfl, h⟩
  | false => exact .inr ⟨rfl, by rw [whenInBounds_false] at h; injection h with h; exact h.symm⟩

/-- An access that the port accepts runs. -/
theorem whenAccepted_accepted {bits off : Nat} (hb : bits = 32) (ha : off % 4 = 0) (hw : off < 0x400)
    (run : Host.Outcome State Fault Refusal) : whenAccepted bits off run = run := by
  have : accessRefusal bits off = none := by
    simp [accessRefusal, hb, ha, Config.windowBytes, Nat.not_le.mpr hw]
  simp [whenAccepted, this]

/-- All that `whenAccepted` can do when it answers a next state. -/
theorem whenAccepted_next {bits off : Nat} {run : Host.Outcome State Fault Refusal} {t : State}
    (h : whenAccepted bits off run = .next t) : bits = 32 ∧ off % 4 = 0 ∧ off < 0x400 ∧ run = .next t := by
  unfold whenAccepted accessRefusal at h
  by_cases h1 : bits ≠ 32
  · simp [h1] at h
  · by_cases h2 : off % 4 ≠ 0
    · simp [h1, h2] at h
    · by_cases h3 : Config.windowBytes ≤ off
      · simp [h1, h2, h3] at h
      · simp only [h1, h2, h3, if_false] at h
        exact ⟨not_not.mp h1, not_not.mp h2, Nat.lt_of_not_le h3, h⟩

/-! ### Bounds as numbers -/

theorem Reg.tripleBase_iff (r : Reg) : Reg.tripleBase r = true ↔ r.val ≤ 13 := by simp [Reg.tripleBase]

theorem Reg.pairBase_iff (r : Reg) : Reg.pairBase r = true ↔ r.val ≤ 14 := by simp [Reg.pairBase]

/-! ### Limbs (R11, R63) -/

/-- The number of a limb (R11). -/
theorem limb_toNat (v : Elem) (j : Fin 8) : (limb v j).toNat = v.toNat / 2 ^ (32 * j.val) % 2 ^ 32 := by
  simp [limb, BitVec.extractLsb'_toNat, Nat.shiftRight_eq_div_pow]

/-- The number after a limb write (R63): the limb is replaced, with no borrow or carry. -/
theorem setLimb_toNat (x : Elem) (j : Fin 8) (v : Word32) :
    (setLimb x j v).toNat = x.toNat - (limb x j).toNat * 2 ^ (32 * j.val) + v.toNat * 2 ^ (32 * j.val) := by
  have hx := x.isLt
  have hv := v.isLt
  unfold setLimb
  rw [BitVec.toNat_add, BitVec.toNat_sub]
  simp only [BitVec.toNat_shiftLeft, BitVec.toNat_setWidth, limb_toNat, Nat.shiftLeft_eq]
  fin_cases j <;> simp only [] <;> omega

/-- A limb reads back as written. -/
theorem limb_setLimb_same (x : Elem) (j : Fin 8) (v : Word32) : limb (setLimb x j v) j = v := by
  apply BitVec.eq_of_toNat_eq
  have hx := x.isLt
  have hv := v.isLt
  rw [limb_toNat, setLimb_toNat, limb_toNat]
  fin_cases j <;> simp only [] <;> omega

/-- The other limbs are unchanged. -/
theorem limb_setLimb_other (x : Elem) {j k : Fin 8} (v : Word32) (h : k ≠ j) :
    limb (setLimb x j v) k = limb x k := by
  apply BitVec.eq_of_toNat_eq
  have hx := x.isLt
  have hv := v.isLt
  rw [limb_toNat, setLimb_toNat, limb_toNat, limb_toNat]
  fin_cases j <;> fin_cases k <;> first | exact absurd rfl h | (simp only []; omega)

end Sys2Proof.Machine
end

