-- ==== Sys2Proof/Laws/Bytes.lean ====
section
/-! SUPPORT. The byte buffer: the big-endian string and its integer are inverse to each other, and the host's words of
it are its bytes in little-endian packing (spec/20_memory.md R62, R63, R66; spec/41_field_montgomery.md R140, R141). -/

namespace Sys2Proof.Machine

open Sys2Proof

/-- The number of a big-endian list of bytes. -/
def beNat (l : List Byte) : Nat := l.foldl (fun a b => a * 256 + b.toNat) 0

theorem beNat_append (l : List Byte) (b : Byte) : beNat (l ++ [b]) = beNat l * 256 + b.toNat := by
  simp [beNat]

theorem beNat_lt (l : List Byte) : beNat l < 256 ^ l.length := by
  induction l using List.reverseRecOn with
  | nil => simp [beNat]
  | append_singleton l b ih =>
    have hb := b.isLt
    rw [beNat_append, List.length_append, List.length_singleton, pow_succ]
    omega

/-- A byte of a big-endian string read back from its number. -/
theorem beNat_byte (l : List Byte) (k : Nat) (hk : k < l.length) :
    beNat l / 256 ^ (l.length - 1 - k) % 256 = (l[k]).toNat := by
  induction l using List.reverseRecOn generalizing k with
  | nil => simp at hk
  | append_singleton l b ih =>
    have hb : b.toNat < 256 := b.isLt
    have hlen : (l ++ [b]).length = l.length + 1 := by simp
    rw [beNat_append]
    by_cases h : k < l.length
    · rw [List.getElem_append_left h, ← ih k h, hlen,
        show l.length + 1 - 1 - k = (l.length - 1 - k) + 1 by omega, pow_succ', ← Nat.div_div_eq_div_mul,
        show (beNat l * 256 + b.toNat) / 256 = beNat l by omega]
    · obtain rfl : k = l.length := by omega
      simp only [hlen, Nat.add_sub_cancel, Nat.sub_self, pow_zero, Nat.div_one]
      simp only [List.getElem_concat_length]
      omega

theorem be32_toNat (d : Vector Byte 32) : (be32 d).toNat = beNat d.toList := by
  have h := beNat_lt d.toList
  rw [Vector.length_toList] at h
  exact Nat.mod_eq_of_lt (by simpa [beNat] using h)

/-- A byte of the string from its integer (R12, R141). -/
theorem be32_byte (d : Vector Byte 32) (k : Nat) (hk : k < 32) :
    (be32 d).toNat / 2 ^ (8 * (31 - k)) % 256 = (d[k]).toNat := by
  have h := beNat_byte d.toList k (by simpa using hk)
  rw [be32_toNat, pow_mul]
  simpa using h

/-- Writing out the integer of a string gives the string back. -/
theorem toBe32_be32 (d : Vector Byte 32) : toBe32 (be32 d) = d := by
  apply Vector.ext
  intro k hk
  apply BitVec.eq_of_toNat_eq
  rw [← be32_byte d k hk]
  simp [toBe32, BitVec.extractLsb'_toNat, Nat.shiftRight_eq_div_pow]

theorem beNat_eq_of_bytes {l l' : List Byte} (hl : l.length = l'.length) (h : beNat l = beNat l') : l = l' := by
  apply List.ext_getElem hl
  intro k h1 h2
  apply BitVec.eq_of_toNat_eq
  rw [← beNat_byte l k h1, ← beNat_byte l' k h2, h, hl]

/-- The integer of the written-out bytes is the value (R141). -/
theorem be32_toBe32 (v : Elem) : be32 (toBe32 v) = v := by
  apply BitVec.eq_of_toNat_eq
  rw [be32_toNat]
  have key : ∀ k ≤ 32, beNat ((toBe32 v).toList.take k) = v.toNat / 2 ^ (8 * (32 - k)) := by
    intro k hk
    induction k with
    | zero =>
      have := v.isLt
      simp [beNat, Nat.div_eq_of_lt this]
    | succ k ih =>
      have hk' : k < (toBe32 v).toList.length := by simp; omega
      rw [← List.take_concat_get' _ k hk', beNat_append, ih (by omega)]
      have hb : ((toBe32 v).toList[k]).toNat = v.toNat / 2 ^ (8 * (32 - (k + 1))) % 256 := by
        simp [toBe32, BitVec.extractLsb'_toNat, Nat.shiftRight_eq_div_pow,
          show 32 - (k + 1) = 31 - k by omega]
      rw [hb, show 8 * (32 - k) = 8 * (32 - (k + 1)) + 8 by omega, pow_add, ← Nat.div_div_eq_div_mul]
      omega
  have := key 32 (by omega)
  rw [List.take_of_length_le (by simp)] at this
  simpa using this

/-! ### The host's words (R62, R63, R66 (3)) -/

/-- The number of a `DBUF` word (R62). -/
theorem dbufWord_toNat (d : Vector Byte 32) (w : Fin 8) :
    (dbufWord d w).toNat = (d[4 * w.val]).toNat + 2 ^ 8 * (d[4 * w.val + 1]).toNat +
      2 ^ 16 * (d[4 * w.val + 2]).toNat + 2 ^ 24 * (d[4 * w.val + 3]).toNat := by
  have h0 := (d[4 * w.val]).isLt
  have h1 := (d[4 * w.val + 1]).isLt
  have h2 := (d[4 * w.val + 2]).isLt
  have h3 := (d[4 * w.val + 3]).isLt
  unfold dbufWord
  simp only [BitVec.toNat_append]
  rw [← Nat.shiftLeft_add_eq_or_of_lt h2, ← Nat.shiftLeft_add_eq_or_of_lt h1, ← Nat.shiftLeft_add_eq_or_of_lt h0]
  simp only [Nat.shiftLeft_eq]
  ring

/-- The bytes after a word write (R63). -/
theorem setDbufWord_getElem (d : Vector Byte 32) (w : Fin 8) (v : Word32) (k : Nat) (hk : k < 32) :
    (setDbufWord d w v)[k] = if k / 4 = w.val then v.extractLsb' (8 * (k % 4)) 8 else d[k] := by
  have hw := w.isLt
  simp only [setDbufWord, Vector.getElem_set]
  by_cases h : k / 4 = w.val
  · rw [if_pos h]
    have h4 : k % 4 = 0 ∨ k % 4 = 1 ∨ k % 4 = 2 ∨ k % 4 = 3 := by omega
    rcases h4 with h4 | h4 | h4 | h4
    · rw [if_neg (by omega), if_neg (by omega), if_neg (by omega), if_pos (by omega), h4]
    · rw [if_neg (by omega), if_neg (by omega), if_pos (by omega), h4]
    · rw [if_neg (by omega), if_pos (by omega), h4]
    · rw [if_pos (by omega), h4]
  · rw [if_neg h, if_neg (by omega), if_neg (by omega), if_neg (by omega), if_neg (by omega)]

/-- A word reads back as written. -/
theorem dbufWord_setDbufWord_same (d : Vector Byte 32) (w : Fin 8) (v : Word32) :
    dbufWord (setDbufWord d w v) w = v := by
  have hw := w.isLt
  have hv := v.isLt
  apply BitVec.eq_of_toNat_eq
  rw [dbufWord_toNat]
  simp only [setDbufWord_getElem]
  rw [if_pos (by omega), if_pos (by omega), if_pos (by omega), if_pos (by omega)]
  rw [show 4 * w.val % 4 = 0 by omega, show (4 * w.val + 1) % 4 = 1 by omega,
    show (4 * w.val + 2) % 4 = 2 by omega, show (4 * w.val + 3) % 4 = 3 by omega]
  simp only [BitVec.extractLsb'_toNat, Nat.shiftRight_eq_div_pow]
  omega

/-- The other words are unchanged. -/
theorem dbufWord_setDbufWord_other (d : Vector Byte 32) {w u : Fin 8} (v : Word32) (h : u ≠ w) :
    dbufWord (setDbufWord d w v) u = dbufWord d u := by
  have hu := u.isLt
  have hne : u.val ≠ w.val := fun e => h (Fin.ext e)
  unfold dbufWord
  simp only [setDbufWord_getElem]
  rw [if_neg (by omega), if_neg (by omega), if_neg (by omega), if_neg (by omega)]

end Sys2Proof.Machine
end

