-- ==== Sys2Proof/Laws/Mont.lean ====
section
/-! SUPPORT. What the field functions compute (spec/41_field_montgomery.md R144, R145, R149, R150, R152, R154): one
lemma each that callers cite instead of unfolding them. -/

namespace Sys2Proof.Machine

open Sys2Proof

/-! ### The accumulator (R142, R144) -/

theorem montAcc_zero (x y m m' : Nat) : montAcc x y m m' 0 = 0 := rfl

theorem montAcc_succ (x y m m' n : Nat) :
    montAcc x y m m' (n + 1) = montStep x y m m' (montAcc x y m m' n) n := by
  simp [montAcc, List.range_succ]

/-- One iteration keeps `A < y + m`, whatever `m'` is (R144). -/
theorem montStep_lt {x y m m' A : Nat} (i : Nat) (h : A < y + m) : montStep x y m m' A i < y + m := by
  have hx : x / Config.limbBase ^ i % Config.limbBase ≤ 2 ^ 32 - 1 :=
    Nat.le_sub_one_of_lt (Nat.mod_lt _ (by decide))
  have hu (n : Nat) : n % Config.limbBase ≤ 2 ^ 32 - 1 := Nat.le_sub_one_of_lt (Nat.mod_lt _ (by decide))
  unfold montStep
  simp only
  generalize x / Config.limbBase ^ i % Config.limbBase = xi at hx ⊢
  have hu := hu ((A % Config.limbBase + xi * (y % Config.limbBase)) * m')
  generalize (A % Config.limbBase + xi * (y % Config.limbBase)) * m' % Config.limbBase = u at hu ⊢
  rw [Nat.div_lt_iff_lt_mul (by decide)]
  have h1 := Nat.mul_le_mul_right y hx
  have h2 := Nat.mul_le_mul_right m hu
  simp only [Config.limbBase]
  omega

/-- The accumulator obeys `A < y + m`, or is 0 when `y = m = 0` (R144). -/
theorem montAcc_bound (x y m m' n : Nat) :
    montAcc x y m m' n < y + m ∨ montAcc x y m m' n = 0 ∧ y = 0 ∧ m = 0 := by
  rcases Nat.eq_zero_or_pos (y + m) with h | h
  · obtain ⟨rfl, rfl⟩ : y = 0 ∧ m = 0 := by omega
    refine .inr ⟨?_, rfl, rfl⟩
    induction n with
    | zero => rfl
    | succ n ih =>
      rw [montAcc_succ, ih]
      simp [montStep]
  · left
    induction n with
    | zero => simpa [montAcc_zero] using h
    | succ n ih => rw [montAcc_succ]; exact montStep_lt n ih

/-- The value of `montmul` as a number: rule R142's result, from which the final reduction removes nothing (R144). -/
theorem montmul_toNat (x y : Elem) (c : Bank) :
    (montmul x y c).toNat =
      (if c.m.toNat ≤ montAcc x.toNat y.toNat c.m.toNat c.m0inv.toNat 8 then
        montAcc x.toNat y.toNat c.m.toNat c.m0inv.toNat 8 - c.m.toNat
      else montAcc x.toNat y.toNat c.m.toNat c.m0inv.toNat 8) := by
  have hb := montAcc_bound x.toNat y.toNat c.m.toNat c.m0inv.toNat 8
  have hy := y.isLt
  have hm := c.m.isLt
  unfold montmul
  simp only [BitVec.toNat_ofNat, Config.limbCount]
  apply Nat.mod_eq_of_lt
  split <;> omega

/-- With a matching `M0INV` the division of each iteration is exact: the digit makes the low limb 0 (R142). -/
theorem montStep_exact {y m m' A xi : Nat} (hm : m * m' % 2 ^ 32 = 2 ^ 32 - 1) :
    2 ^ 32 ∣ A + xi * y + (A % 2 ^ 32 + xi * (y % 2 ^ 32)) * m' % 2 ^ 32 * m := by
  have hm' : ((m : ZMod (2 ^ 32)) * m') = -1 := by
    have h : ((m * m' + 1 : Nat) : ZMod (2 ^ 32)) = 0 := by
      rw [ZMod.natCast_eq_zero_iff]; omega
    push_cast at h
    linear_combination h
  rw [← ZMod.natCast_eq_zero_iff]
  push_cast [ZMod.natCast_mod]
  linear_combination (A + xi * y : ZMod (2 ^ 32)) * hm'

/-- After `n` iterations in contract, `A · b^n = (x mod b^n) · y + q · m` for some `q < b^n` (R145). -/
theorem montAcc_exact {x y m m' : Nat} (hm : m * m' % 2 ^ 32 = 2 ^ 32 - 1) (n : Nat) :
    ∃ q, q < 2 ^ (32 * n) ∧ montAcc x y m m' n * 2 ^ (32 * n) = x % 2 ^ (32 * n) * y + q * m := by
  induction n with
  | zero => exact ⟨0, by simp, by simp [montAcc_zero, Nat.mod_one]⟩
  | succ n ih =>
    obtain ⟨q, hq, ih⟩ := ih
    rw [montAcc_succ]
    unfold montStep
    simp only
    generalize montAcc x y m m' n = A at ih ⊢
    have hpow : Config.limbBase ^ n = 2 ^ (32 * n) := by rw [Config.limbBase, ← pow_mul]
    rw [hpow]
    have hxs : x % 2 ^ (32 * (n + 1)) = x % 2 ^ (32 * n) + 2 ^ (32 * n) * (x / 2 ^ (32 * n) % 2 ^ 32) := by
      rw [show 32 * (n + 1) = 32 * n + 32 by ring, pow_add, Nat.mod_mul]
    generalize x / 2 ^ (32 * n) % Config.limbBase = xi at hxs ⊢
    have hd := montStep_exact (y := y) (A := A) (xi := xi) hm
    have hu : (A % 2 ^ 32 + xi * (y % 2 ^ 32)) * m' % 2 ^ 32 < 2 ^ 32 := Nat.mod_lt _ (by decide)
    simp only [Config.limbBase] at *
    generalize (A % 2 ^ 32 + xi * (y % 2 ^ 32)) * m' % 2 ^ 32 = u at hd hu ⊢
    refine ⟨q + 2 ^ (32 * n) * u, ?_, ?_⟩
    · rw [show 32 * (n + 1) = 32 * n + 32 by ring, pow_add]
      nlinarith [Nat.mul_le_mul_left (2 ^ (32 * n)) (Nat.le_sub_one_of_lt hu)]
    · rw [hxs, show 2 ^ (32 * (n + 1)) = 2 ^ 32 * 2 ^ (32 * n) by ring, ← mul_assoc, Nat.div_mul_cancel hd]
      linear_combination ih

/-- In contract: `montmul` is canonical and is `x·y·R⁻¹ mod m` (R145), here as a congruence. -/
theorem montmul_spec {x y : Elem} {c : Bank} (hc : c.Valid) (h : x.toNat * y.toNat < c.m.toNat * 2 ^ 256) :
    Canonical c (montmul x y c) ∧
      ((montmul x y c).toNat : ZMod c.m.toNat) * 2 ^ 256 = x.toNat * y.toNat := by
  obtain ⟨-, h3, -, hm⟩ := hc
  obtain ⟨q, hq, e⟩ := montAcc_exact (x := x.toNat) (y := y.toNat) hm 8
  have ht := montmul_toNat x y c
  generalize montAcc x.toNat y.toNat c.m.toNat c.m0inv.toNat 8 = A at e ht
  rw [show 32 * 8 = 256 by rfl, Nat.mod_eq_of_lt x.isLt] at e
  rw [show 32 * 8 = 256 by rfl] at hq
  have hlt : A < 2 * c.m.toNat := by
    have h1 : q * c.m.toNat < 2 ^ 256 * c.m.toNat := Nat.mul_lt_mul_of_pos_right hq (by omega)
    have h2 : A * 2 ^ 256 < 2 * c.m.toNat * 2 ^ 256 := by rw [e]; linarith
    exact Nat.lt_of_mul_lt_mul_right h2
  have ez : (A : ZMod c.m.toNat) * 2 ^ 256 = x.toNat * y.toNat := by
    have := congrArg (Nat.cast (R := ZMod c.m.toNat)) e
    simp only [Nat.cast_add, Nat.cast_mul, Nat.cast_pow, Nat.cast_ofNat] at this
    rw [this, ZMod.natCast_self, mul_zero, add_zero]
  constructor
  · rw [Canonical, ht]; split <;> omega
  · rw [ht]
    split
    · rename_i hle
      rw [Nat.cast_sub hle, ZMod.natCast_self, sub_zero, ez]
    · exact ez

/-! ### The standard-domain value (R15, R28) -/

/-- The radix is invertible modulo an odd modulus. -/
theorem radix_mul_inv {c : Bank} (hc : c.Valid) : (2 ^ 256 : ZMod c.m.toNat) * (2 ^ 256)⁻¹ = 1 := by
  have hodd : Nat.Coprime 2 c.m.toNat := (Nat.coprime_two_left.mpr (Nat.odd_iff.mpr hc.1))
  have := ZMod.coe_mul_inv_eq_one (2 ^ 256) (hodd.pow_left 256)
  simpa only [Nat.cast_pow, Nat.cast_ofNat] using this

theorem stdVal_mul_radix {c : Bank} (hc : c.Valid) (v : Elem) :
    stdVal c.m.toNat v * 2 ^ 256 = v.toNat := by
  rw [stdVal, mul_assoc, mul_comm _ (2 ^ 256), radix_mul_inv hc, mul_one]

/-- A canonical register is determined by its standard-domain value. -/
theorem stdVal_inj {c : Bank} (hc : c.Valid) {v w : Elem} (hv : Canonical c v) (hw : Canonical c w)
    (h : stdVal c.m.toNat v = stdVal c.m.toNat w) : v = w := by
  have e : ((v.toNat : ℕ) : ZMod c.m.toNat) = (w.toNat : ℕ) := by
    rw [← stdVal_mul_radix hc, ← stdVal_mul_radix hc, h]
  rw [ZMod.natCast_eq_natCast_iff', Nat.mod_eq_of_lt hv, Nat.mod_eq_of_lt hw] at e
  exact BitVec.eq_of_toNat_eq e

theorem stdVal_zero (p : Nat) : stdVal p 0 = 0 := by simp [stdVal]

/-- The same for the literal as `simp` writes it. -/
@[simp] theorem stdVal_zero_literal (p : Nat) : stdVal p 0#256 = 0 := stdVal_zero p

theorem Bank.Valid.canonical_zero {c : Bank} (hc : c.Valid) : Canonical c 0 := by
  have := hc.2.1
  rw [Canonical, show (0 : Elem).toNat = 0 by rfl]
  omega

theorem Bank.Valid.canonical_r2 {c : Bank} (hc : c.Valid) : Canonical c c.r2 := by
  rw [Canonical, hc.2.2.1]
  exact Nat.mod_lt _ (by have := hc.2.1; omega)

/-- The test `= 0` on a canonical register is the test on its value. -/
theorem stdVal_eq_zero {c : Bank} (hc : c.Valid) {v : Elem} (hv : Canonical c v) :
    stdVal c.m.toNat v = 0 ↔ v = 0 :=
  ⟨fun h => stdVal_inj hc hv hc.canonical_zero (by rw [h, stdVal_zero]), fun h => by rw [h, stdVal_zero]⟩

/-- `montmul` with one canonical factor: canonical, and the product of the values (R145, R149). -/
theorem montmul_std {x y : Elem} {c : Bank} (hc : c.Valid) (hy : Canonical c y) :
    Canonical c (montmul x y c) ∧ stdVal c.m.toNat (montmul x y c) = stdVal c.m.toNat x * stdVal c.m.toNat y := by
  have h : x.toNat * y.toNat < c.m.toNat * 2 ^ 256 := by
    have hx := x.isLt
    rw [Canonical] at hy
    rw [mul_comm c.m.toNat]
    exact Nat.mul_lt_mul'' hx hy
  obtain ⟨h1, h2⟩ := montmul_spec hc h
  refine ⟨h1, ?_⟩
  simp only [stdVal]
  linear_combination ((2 ^ 256 : ZMod c.m.toNat)⁻¹ ^ 2) * h2 -
    ((montmul x y c).toNat * (2 ^ 256 : ZMod c.m.toNat)⁻¹) * radix_mul_inv hc

/-- `one(c)` is the Montgomery form of 1 (R146). -/
theorem montOne_std {c : Bank} (hc : c.Valid) :
    Canonical c (montOne c) ∧ stdVal c.m.toNat (montOne c) = 1 := by
  obtain ⟨h1, h2⟩ := montmul_std (x := 1) hc hc.canonical_r2
  refine ⟨h1, ?_⟩
  rw [montOne, h2]
  simp only [stdVal, hc.2.2.1, ZMod.natCast_mod, Nat.cast_pow, Nat.cast_ofNat]
  have e : ((1 : Elem).toNat : ZMod c.m.toNat) = 1 := by simp
  rw [e, show (2 : ZMod c.m.toNat) ^ 512 = 2 ^ 256 * 2 ^ 256 by rw [← pow_add]]
  linear_combination ((2 ^ 256 : ZMod c.m.toNat) * (2 ^ 256)⁻¹ + 1) * radix_mul_inv hc

/-- `fadd` of canonical values: canonical, and the sum modulo `m` (R150). -/
theorem fadd_spec {x y : Elem} {c : Bank} (hx : Canonical c x) (hy : Canonical c y) :
    (fadd x y c).toNat = (x.toNat + y.toNat) % c.m.toNat := by
  have hm := c.m.isLt
  unfold Canonical at hx hy
  unfold fadd
  simp only [BitVec.toNat_ofNat]
  split
  · rw [Nat.mod_eq_of_lt (by omega), Nat.mod_eq_sub_mod (a := x.toNat + y.toNat) (by omega),
      Nat.mod_eq_of_lt (a := x.toNat + y.toNat - _) (by omega)]
  · rw [Nat.mod_eq_of_lt (by omega), Nat.mod_eq_of_lt (by omega)]

/-- `fsub` of canonical values: canonical, and the difference modulo `m` (R152). -/
theorem fsub_spec {x y : Elem} {c : Bank} (hx : Canonical c x) (hy : Canonical c y) :
    (fsub x y c).toNat = (x.toNat + (c.m.toNat - y.toNat)) % c.m.toNat := by
  have hm := c.m.isLt
  have hx' := x.isLt
  have hy' := y.isLt
  unfold Canonical at hx hy
  unfold fsub
  simp only
  split
  · rw [BitVec.toNat_add, BitVec.toNat_sub, Nat.mod_eq_of_lt (a := x.toNat + _) (by omega)]
    omega
  · rw [BitVec.toNat_sub, Nat.mod_eq_sub_mod (a := x.toNat + _) (by omega),
      Nat.mod_eq_of_lt (a := x.toNat + _ - _) (by omega)]
    omega

theorem fadd_std {x y : Elem} {c : Bank} (hx : Canonical c x) (hy : Canonical c y) :
    Canonical c (fadd x y c) ∧ stdVal c.m.toNat (fadd x y c) = stdVal c.m.toNat x + stdVal c.m.toNat y := by
  have h := fadd_spec hx hy
  unfold Canonical at *
  refine ⟨by rw [h]; exact Nat.mod_lt _ (by omega), ?_⟩
  simp only [stdVal, h, ZMod.natCast_mod, Nat.cast_add]
  ring

theorem fsub_std {x y : Elem} {c : Bank} (hx : Canonical c x) (hy : Canonical c y) :
    Canonical c (fsub x y c) ∧ stdVal c.m.toNat (fsub x y c) = stdVal c.m.toNat x - stdVal c.m.toNat y := by
  have h := fsub_spec hx hy
  unfold Canonical at *
  refine ⟨by rw [h]; exact Nat.mod_lt _ (by omega), ?_⟩
  simp only [stdVal, h, ZMod.natCast_mod, Nat.cast_add, Nat.cast_sub hy.le, ZMod.natCast_self]
  ring

/-! ### The inverter (R154) -/

/-- `n` iterations of the inverter raise to the low `n` exponent bits (R154). -/
theorem finvLoop_std {x : Elem} {c : Bank} (hc : c.Valid) (hx : Canonical c x) (e : Elem) (n : Nat) (r : Elem)
    (hr : Canonical c r) :
    Canonical c (finvLoop x c e n r) ∧
      stdVal c.m.toNat (finvLoop x c e n r) =
        stdVal c.m.toNat r ^ 2 ^ n * stdVal c.m.toNat x ^ (e.toNat % 2 ^ n) := by
  induction n generalizing r with
  | zero => simp [finvLoop, hr, Nat.mod_one]
  | succ n ih =>
    obtain ⟨hs, es⟩ := montmul_std (x := r) hc hr
    obtain ⟨ht, et⟩ := montmul_std (x := montmul r r c) hc hx
    have hbit : e.toNat % 2 ^ (n + 1) = e.toNat % 2 ^ n + (if e.getLsbD n then 2 ^ n else 0) := by
      rw [pow_succ, Nat.mod_mul, BitVec.getLsbD, Nat.testBit_eq_decide_div_mod_eq]
      rcases Nat.mod_two_eq_zero_or_one (e.toNat / 2 ^ n) with h | h <;> simp [h]
    unfold finvLoop
    simp only
    rw [hbit]
    split
    · obtain ⟨h1, h2⟩ := ih _ ht
      refine ⟨h1, ?_⟩
      rw [h2, et, es]
      ring
    · obtain ⟨h1, h2⟩ := ih _ hs
      refine ⟨h1, ?_⟩
      rw [h2, es]
      ring

/-- `finv` in contract: canonical, and the power with exponent `m - 2` (R154). -/
theorem finv_std {x : Elem} {c : Bank} (hc : c.Valid) (hx : Canonical c x) :
    Canonical c (finv x c) ∧ stdVal c.m.toNat (finv x c) = stdVal c.m.toNat x ^ (c.m.toNat - 2) := by
  have h3 := hc.2.1
  have hm := c.m.isLt
  have he : (c.m - 2).toNat % 2 ^ 256 = c.m.toNat - 2 := by
    rw [BitVec.toNat_sub, show (2 : Elem).toNat = 2 by rfl]
    omega
  obtain ⟨h1, h2⟩ := finvLoop_std hc hx (c.m - 2) 256 _ (montOne_std hc).1
  refine ⟨h1, ?_⟩
  rw [finv, h2, (montOne_std hc).2, one_pow, one_mul, he]

/-- `finv` for a prime modulus: the inverse, and 0 for 0 (R154). -/
theorem finv_prime {x : Elem} {c : Bank} (hc : c.Valid) (hp : c.m.toNat.Prime) (hx : Canonical c x) :
    Canonical c (finv x c) ∧ stdVal c.m.toNat (finv x c) = (stdVal c.m.toNat x)⁻¹ := by
  have : Fact c.m.toNat.Prime := ⟨hp⟩
  obtain ⟨h1, h2⟩ := finv_std hc hx
  refine ⟨h1, ?_⟩
  have h3 := hc.2.1
  rw [h2]
  by_cases h0 : stdVal c.m.toNat x = 0
  · rw [h0, inv_zero, zero_pow (by omega)]
  · apply eq_inv_of_mul_eq_one_left
    rw [← pow_succ, show c.m.toNat - 2 + 1 = c.m.toNat - 1 by omega, ZMod.pow_card_sub_one_eq_one h0]

/-! ### A zero factor, in every bank -/

theorem montAcc_zero_left (y m m' n : Nat) : montAcc 0 y m m' n = 0 := by
  induction n with
  | zero => rfl
  | succ n ih => simp [montAcc_succ, ih, montStep]

theorem montAcc_zero_right (x m m' n : Nat) : montAcc x 0 m m' n = 0 := by
  induction n with
  | zero => rfl
  | succ n ih => simp [montAcc_succ, ih, montStep]

/-- A zero factor gives 0 in every bank (R143). -/
@[simp] theorem montmul_zero_left (y : Elem) (c : Bank) : montmul 0 y c = 0 := by
  simp [montmul, montAcc_zero_left]

@[simp] theorem montmul_zero_right (x : Elem) (c : Bank) : montmul x 0 c = 0 := by
  simp [montmul, montAcc_zero_right]

/-- The loop of `finv` on a zero operand gives 0 as soon as an exponent bit is 1. -/
theorem finvLoop_zero_operand (c : Bank) (e : Elem) (n : Nat) (r : Elem)
    (h : r = 0 ∨ ∃ i < n, e.getLsbD i = true) : finvLoop 0 c e n r = 0 := by
  induction n generalizing r with
  | zero =>
    rcases h with h | ⟨i, hi, -⟩
    · exact h
    · omega
  | succ n ih =>
    unfold finvLoop
    simp only [montmul_zero_right]
    apply ih
    by_cases hn : e.getLsbD n = true
    · exact .inl (if_pos hn)
    · rw [if_neg hn]
      rcases h with rfl | ⟨i, hi, he⟩
      · exact .inl (montmul_zero_left _ _)
      · have hne : i ≠ n := fun e' => hn (e' ▸ he)
        exact .inr ⟨i, by omega, he⟩

/-- `finv(0) = 0` in every bank whose modulus is not 2, valid or not (R155). -/
theorem finv_zero_operand {c : Bank} (h : c.m ≠ 2) : finv 0 c = 0 := by
  refine finvLoop_zero_operand c _ _ _ (.inr ?_)
  by_contra hb
  push Not at hb
  refine h (sub_eq_zero.mp (BitVec.eq_of_getLsbD_eq fun i hi => ?_))
  simpa using hb i hi

/-! ### Domain algebra (R149): `[x]` is `montForm c x` -/

section DomainAlgebra

variable {c : Bank} {x y : Nat}

theorem montForm_toNat (hc : c.Valid) : (montForm c x).toNat = x * 2 ^ 256 % c.m.toNat := by
  have h : x * 2 ^ 256 % c.m.toNat < c.m.toNat := Nat.mod_lt _ (by have := hc.2.1; omega)
  rw [montForm, BitVec.toNat_ofNat, Nat.mod_eq_of_lt (h.trans c.m.isLt)]

theorem montForm_std (hc : c.Valid) : Canonical c (montForm c x) ∧ stdVal c.m.toNat (montForm c x) = x := by
  refine ⟨?_, ?_⟩
  · rw [Canonical, montForm_toNat hc]
    exact Nat.mod_lt _ (by have := hc.2.1; omega)
  · rw [stdVal, montForm_toNat hc, ZMod.natCast_mod, Nat.cast_mul, Nat.cast_pow, Nat.cast_ofNat, mul_assoc,
      radix_mul_inv hc, mul_one]

/-- A canonical register with the standard-domain value `x` is `[x]`. -/
theorem eq_montForm (hc : c.Valid) {v : Elem} (hv : Canonical c v) (h : stdVal c.m.toNat v = x) : v = montForm c x :=
  stdVal_inj hc hv (montForm_std hc).1 (h.trans (montForm_std hc).2.symm)

/-- `[0] = 0`, in every bank. -/
@[simp] theorem montForm_zero (c : Bank) : montForm c 0 = 0 := by simp [montForm]

/-- `montmul([x], [y]) = [x·y mod m]`. -/
theorem montmul_montForm (hc : c.Valid) :
    montmul (montForm c x) (montForm c y) c = montForm c (x * y % c.m.toNat) := by
  obtain ⟨hx, ex⟩ := montForm_std (x := x) hc
  obtain ⟨hy, ey⟩ := montForm_std (x := y) hc
  obtain ⟨h, e⟩ := montmul_std (x := montForm c x) hc hy
  exact eq_montForm hc h (by rw [e, ex, ey]; simp)

/-- `montmul([x], y) = x·y mod m`, in the standard domain. -/
theorem montmul_montForm_standard (hc : c.Valid) {v : Elem} :
    (montmul (montForm c x) v c).toNat = x * v.toNat % c.m.toNat := by
  obtain ⟨hx, -⟩ := montForm_std (x := x) hc
  have hv := v.isLt
  have hxv : (montForm c x).toNat * v.toNat < c.m.toNat * 2 ^ 256 :=
    Nat.mul_lt_mul_of_lt_of_le hx hv.le (by positivity)
  obtain ⟨h, e⟩ := montmul_spec hc hxv
  have key : (((montmul (montForm c x) v c).toNat : ℕ) : ZMod c.m.toNat) = (x * v.toNat : ℕ) := by
    have hr := radix_mul_inv hc
    have e' := congrArg (· * (2 ^ 256 : ZMod c.m.toNat)⁻¹) e
    simp only [mul_assoc, hr, mul_one] at e'
    rw [e', montForm_toNat hc, ZMod.natCast_mod, Nat.cast_mul, Nat.cast_mul, Nat.cast_pow, Nat.cast_ofNat]
    linear_combination (x : ZMod c.m.toNat) * v.toNat * hr
  rw [ZMod.natCast_eq_natCast_iff', Nat.mod_eq_of_lt h] at key
  exact key

/-- `fadd([x], [y]) = [x + y mod m]`. -/
theorem fadd_montForm (hc : c.Valid) :
    fadd (montForm c x) (montForm c y) c = montForm c ((x + y) % c.m.toNat) := by
  obtain ⟨hx, ex⟩ := montForm_std (x := x) hc
  obtain ⟨hy, ey⟩ := montForm_std (x := y) hc
  obtain ⟨h, e⟩ := fadd_std hx hy
  exact eq_montForm hc h (by rw [e, ex, ey]; simp)

/-- `fsub([x], [y]) = [x − y mod m]`. -/
theorem fsub_montForm (hc : c.Valid) (h : y < c.m.toNat) :
    fsub (montForm c x) (montForm c y) c = montForm c ((x + (c.m.toNat - y)) % c.m.toNat) := by
  obtain ⟨hx, ex⟩ := montForm_std (x := x) hc
  obtain ⟨hy, ey⟩ := montForm_std (x := y) hc
  obtain ⟨h', e⟩ := fsub_std hx hy
  exact eq_montForm hc h' (by rw [e, ex, ey]; simp [Nat.cast_sub h.le, sub_eq_add_neg])

/-- `finv([x]) = [x⁻¹ mod m]` for a prime modulus. -/
theorem finv_montForm (hc : c.Valid) (hp : c.m.toNat.Prime) (h : x * y % c.m.toNat = 1) :
    finv (montForm c x) c = montForm c y := by
  have : Fact c.m.toNat.Prime := ⟨hp⟩
  obtain ⟨hx, ex⟩ := montForm_std (x := x) hc
  obtain ⟨hi, ei⟩ := finv_prime hc hp hx
  refine eq_montForm hc hi ?_
  rw [ei, ex]
  apply inv_eq_of_mul_eq_one_right
  have e : ((x * y % c.m.toNat : ℕ) : ZMod c.m.toNat) = (1 : ℕ) := by rw [h]
  simpa using e

end DomainAlgebra

end Sys2Proof.Machine
end

