-- ==== Sys2Proof/Laws/Curve.lean ====
section
/-! SUPPORT. What the curve functions compute in contract (spec/42_curve.md R174, R177, R180, R183): first as
polynomials in the standard-domain values, then as operations of the point group. -/

namespace Sys2Proof.Machine

open Sys2Proof

/-- All three coordinates canonical. -/
def Triple.CanonicalAll (c : Bank) (t : Triple) : Prop := Canonical c t.x ∧ Canonical c t.y ∧ Canonical c t.z

section Polynomials

variable {c : Bank}

/-- `pdbl` in contract: the polynomials of rule R172's comments. -/
theorem pdbl_std (hc : c.Valid) {aReg : Elem} {t : Triple} (ht : t.CanonicalAll c) :
    (pdbl c aReg t).CanonicalAll c ∧
      ∀ X Y Z A M S : ZMod c.m.toNat, X = stdVal _ t.x → Y = stdVal _ t.y → Z = stdVal _ t.z → A = stdVal _ aReg →
        M = 3 * X ^ 2 + A * Z ^ 4 → S = 4 * X * Y ^ 2 →
        stdVal _ (pdbl c aReg t).x = M ^ 2 - 2 * S ∧
        stdVal _ (pdbl c aReg t).y = M * (S - (M ^ 2 - 2 * S)) - 8 * Y ^ 4 ∧
        stdVal _ (pdbl c aReg t).z = 2 * Y * Z := by
  obtain ⟨hx, hy, hz⟩ := ht
  obtain ⟨h1, e1⟩ := montmul_std (x := t.y) hc hy
  obtain ⟨h2, e2⟩ := montmul_std (x := t.x) hc h1
  obtain ⟨h3, e3⟩ := fadd_std h2 h2
  obtain ⟨h4, e4⟩ := fadd_std h3 h3
  obtain ⟨h5, e5⟩ := montmul_std (x := t.z) hc hz
  obtain ⟨h6, e6⟩ := montmul_std (x := montmul t.z t.z c) hc h5
  obtain ⟨h7, e7⟩ := montmul_std (x := t.x) hc hx
  obtain ⟨h8, e8⟩ := fadd_std h7 h7
  obtain ⟨h9, e9⟩ := fadd_std h8 h7
  obtain ⟨h10, e10⟩ := montmul_std (x := aReg) hc h6
  obtain ⟨h11, e11⟩ := fadd_std h9 h10
  obtain ⟨h12, e12⟩ := montmul_std (x := _) hc h11
  obtain ⟨h13, e13⟩ := fadd_std h4 h4
  obtain ⟨h14, e14⟩ := fsub_std h12 h13
  obtain ⟨h15, e15⟩ := montmul_std (x := _) hc h1
  obtain ⟨h16, e16⟩ := fadd_std h15 h15
  obtain ⟨h17, e17⟩ := fadd_std h16 h16
  obtain ⟨h18, e18⟩ := fadd_std h17 h17
  obtain ⟨h19, e19⟩ := fsub_std h4 h14
  obtain ⟨h20, e20⟩ := montmul_std (x := _) hc h19
  obtain ⟨h21, e21⟩ := fsub_std h20 h18
  obtain ⟨h22, e22⟩ := montmul_std (x := t.y) hc hz
  obtain ⟨h23, e23⟩ := fadd_std h22 h22
  refine ⟨⟨h14, h21, h23⟩, ?_⟩
  rintro X Y Z A M S rfl rfl rfl rfl rfl rfl
  refine ⟨e14.trans ?_, e21.trans ?_, e23.trans ?_⟩
  · rw [e12, e13, e11, e10, e9, e8, e7, e6, e5, e4, e3, e2, e1]; ring
  · rw [e20, e18, e17, e16, e15, e19, e14, e12, e13, e11, e10, e9, e8, e7, e6, e5, e4, e3, e2, e1]; ring
  · rw [e22]; ring

/-- `H` and `Rr` in contract (R175). -/
theorem paddHR_std (hc : c.Valid) {t u : Triple} (ht : t.CanonicalAll c) (hu : u.CanonicalAll c) :
    (Canonical c (paddH c t u) ∧ stdVal c.m.toNat (paddH c t u) =
      stdVal _ u.x * stdVal _ t.z ^ 2 - stdVal _ t.x * stdVal _ u.z ^ 2) ∧
    (Canonical c (paddRr c t u) ∧ stdVal c.m.toNat (paddRr c t u) =
      stdVal _ u.y * stdVal _ t.z ^ 3 - stdVal _ t.y * stdVal _ u.z ^ 3) := by
  obtain ⟨-, -, hz1⟩ := ht
  obtain ⟨-, -, hz2⟩ := hu
  obtain ⟨h1, e1⟩ := montmul_std (x := t.z) hc hz1
  obtain ⟨h2, e2⟩ := montmul_std (x := u.z) hc hz2
  obtain ⟨h3, e3⟩ := montmul_std (x := t.x) hc h2
  obtain ⟨h4, e4⟩ := montmul_std (x := u.x) hc h1
  obtain ⟨h5, e5⟩ := montmul_std (x := t.y) hc hz2
  obtain ⟨h6, e6⟩ := montmul_std (x := montmul t.y u.z c) hc h2
  obtain ⟨h7, e7⟩ := montmul_std (x := u.y) hc hz1
  obtain ⟨h8, e8⟩ := montmul_std (x := montmul u.y t.z c) hc h1
  obtain ⟨h9, e9⟩ := fsub_std h4 h3
  obtain ⟨h10, e10⟩ := fsub_std h8 h6
  refine ⟨⟨h9, e9.trans ?_⟩, h10, e10.trans ?_⟩
  · rw [e4, e3, e2, e1]; ring
  · rw [e8, e7, e6, e5, e2, e1]; ring

/-- The generic sum in contract: the polynomials of rule R175's comments. -/
theorem paddGeneric_std (hc : c.Valid) {t u : Triple} (ht : t.CanonicalAll c) (hu : u.CanonicalAll c) :
    (paddGeneric c t u).CanonicalAll c ∧
      ∀ H R U S : ZMod c.m.toNat, H = stdVal _ (paddH c t u) → R = stdVal _ (paddRr c t u) →
        U = stdVal _ t.x * stdVal _ u.z ^ 2 → S = stdVal _ t.y * stdVal _ u.z ^ 3 →
        stdVal _ (paddGeneric c t u).x = R ^ 2 - H ^ 3 - 2 * U * H ^ 2 ∧
        stdVal _ (paddGeneric c t u).y = R * (U * H ^ 2 - (R ^ 2 - H ^ 3 - 2 * U * H ^ 2)) - S * H ^ 3 ∧
        stdVal _ (paddGeneric c t u).z = H * stdVal _ t.z * stdVal _ u.z := by
  obtain ⟨⟨hH, -⟩, hR, -⟩ := paddHR_std hc ht hu
  obtain ⟨-, -, hz1⟩ := ht
  obtain ⟨-, -, hz2⟩ := hu
  obtain ⟨h1, e1⟩ := montmul_std (x := u.z) hc hz2
  obtain ⟨h2, e2⟩ := montmul_std (x := t.x) hc h1
  obtain ⟨h3, e3⟩ := montmul_std (x := t.y) hc hz2
  obtain ⟨h4, e4⟩ := montmul_std (x := montmul t.y u.z c) hc h1
  obtain ⟨h5, e5⟩ := montmul_std (x := paddH c t u) hc hH
  obtain ⟨h6, e6⟩ := montmul_std (x := paddH c t u) hc h5
  obtain ⟨h7, e7⟩ := montmul_std (x := montmul t.x (montmul u.z u.z c) c) hc h5
  obtain ⟨h8, e8⟩ := montmul_std (x := paddRr c t u) hc hR
  obtain ⟨h9, e9⟩ := fsub_std h8 h6
  obtain ⟨h10, e10⟩ := fadd_std h7 h7
  obtain ⟨h11, e11⟩ := fsub_std h9 h10
  obtain ⟨h12, e12⟩ := fsub_std h7 h11
  obtain ⟨h13, e13⟩ := montmul_std (x := paddRr c t u) hc h12
  obtain ⟨h14, e14⟩ := montmul_std (x := montmul (montmul t.y u.z c) (montmul u.z u.z c) c) hc h6
  obtain ⟨h15, e15⟩ := fsub_std h13 h14
  obtain ⟨h16, e16⟩ := montmul_std (x := paddH c t u) hc hz1
  obtain ⟨h17, e17⟩ := montmul_std (x := montmul (paddH c t u) t.z c) hc hz2
  refine ⟨⟨h11, h15, h17⟩, ?_⟩
  rintro H R U S rfl rfl rfl rfl
  refine ⟨e11.trans ?_, e15.trans ?_, e17.trans ?_⟩
  · rw [e9, e10, e8, e7, e6, e5, e2, e1]; ring
  · rw [e13, e14, e12, e11, e9, e10, e8, e7, e6, e5, e4, e3, e2, e1]; ring
  · rw [e16]

/-- `toaff` in contract for a prime modulus (R178, R180). -/
theorem toaff_std (hc : c.Valid) (hp : c.m.toNat.Prime) {t : Triple} (ht : t.CanonicalAll c) :
    (Canonical c (toaff c t).1.x ∧ Canonical c (toaff c t).1.y) ∧ (toaff c t).2 = decide (t.z = 0) ∧
      stdVal c.m.toNat (toaff c t).1.x = stdVal _ t.x * (stdVal c.m.toNat t.z)⁻¹ ^ 2 ∧
      stdVal c.m.toNat (toaff c t).1.y = stdVal _ t.y * (stdVal c.m.toNat t.z)⁻¹ ^ 3 := by
  have : Fact c.m.toNat.Prime := ⟨hp⟩
  obtain ⟨-, -, hz⟩ := ht
  obtain ⟨h1, e1⟩ := finv_prime hc hp hz
  obtain ⟨h2, e2⟩ := montmul_std (x := finv t.z c) hc h1
  obtain ⟨h3, e3⟩ := montmul_std (x := montmul (finv t.z c) (finv t.z c) c) hc h1
  obtain ⟨h4, e4⟩ := montmul_std (x := t.x) hc h2
  obtain ⟨h5, e5⟩ := montmul_std (x := t.y) hc h3
  by_cases h0 : t.z = 0
  · have hz0 : Canonical c 0#256 := hc.canonical_zero
    simp [toaff, isZeroElem, h0, hz0]
  · simp only [toaff, isZeroElem, h0, decide_false, Bool.false_eq_true, if_false]
    refine ⟨⟨h4, h5⟩, trivial, ?_, ?_⟩
    · rw [e4, e2, e1]; ring
    · rw [e5, e3, e2, e1]; ring

end Polynomials

/-! ### The point group (R28, R174, R177, R180, R183) -/

section Group

variable {c : Bank} {a b : ZMod c.m.toNat}

theorem RepTriple.canonicalAll {t : Triple} {P : (shortCurve c.m.toNat a b).Point} (h : RepTriple _ t P) :
    t.CanonicalAll c := h.1

/-- Two is not zero modulo an odd prime. -/
theorem two_ne_zero_mod (hc : c.Valid) : (2 : ZMod c.m.toNat) ≠ 0 := by
  intro h
  have h2 : ((2 : ℕ) : ZMod c.m.toNat) = 0 := by exact_mod_cast h
  rw [ZMod.natCast_eq_zero_iff] at h2
  have := Nat.le_of_dvd (by norm_num) h2
  have := hc.2.1
  omega

/-- `pdbl` represents the double (R174). -/
theorem pdbl_rep (hc : c.Valid) [Fact c.m.toNat.Prime] {aReg : Elem} (ha : stdVal _ aReg = a) {t : Triple}
    {P : (shortCurve c.m.toNat a b).Point} (h : RepTriple _ t P) : RepTriple _ (pdbl c aReg t) (P + P) := by
  obtain ⟨hcan, e⟩ := pdbl_std (aReg := aReg) hc h.canonicalAll
  obtain ⟨ex, ey, ez⟩ := e _ _ _ _ _ _ rfl rfl rfl rfl rfl rfl
  refine ⟨hcan, ?_⟩
  have hz := h.canonicalAll.2.2
  match P, h with
  | .zero, h =>
    have hz0 : t.z = 0 := h.2
    show (pdbl c aReg t).z = 0
    rw [← stdVal_eq_zero hc hcan.2.2, ez, hz0, stdVal_zero, mul_zero]
  | .some x y hxy, h =>
    obtain ⟨hz0, hX, hY⟩ := h.2
    have hZ : stdVal c.m.toNat t.z ≠ 0 := fun h => hz0 ((stdVal_eq_zero hc hz).mp h)
    have hneg : (shortCurve c.m.toNat a b).negY x y = -y := by
      simp [shortCurve, WeierstrassCurve.Affine.negY]
    by_cases hy0 : y = 0
    · rw [WeierstrassCurve.Affine.Point.add_self_of_Y_eq (by rw [hneg, hy0, neg_zero])]
      show (pdbl c aReg t).z = 0
      rw [← stdVal_eq_zero hc hcan.2.2, ez, hY, hy0, zero_mul, mul_zero, zero_mul]
    · have h2 := two_ne_zero_mod hc
      have hne : y ≠ (shortCurve c.m.toNat a b).negY x y := by
        rw [hneg]
        intro h
        apply hy0
        have : 2 * y = 0 := by linear_combination h
        exact (mul_eq_zero.mp this).resolve_left h2
      rw [WeierstrassCurve.Affine.Point.add_self_of_Y_ne hne]
      have hsl := WeierstrassCurve.Affine.slope_of_Y_ne (W := shortCurve c.m.toNat a b) (x₁ := x) rfl hne
      rw [hneg, sub_neg_eq_add, ← two_mul] at hsl
      simp only [shortCurve, mul_zero, zero_mul, add_zero, sub_zero] at hsl
      refine ⟨?_, ?_, ?_⟩
      · rw [Ne, ← stdVal_eq_zero hc hcan.2.2, ez, hY]
        exact mul_ne_zero (mul_ne_zero h2 (mul_ne_zero hy0 (pow_ne_zero 3 hZ))) hZ
      · rw [ex, ez, hX, hY, ha]
        simp only [WeierstrassCurve.Affine.addX, shortCurve, hsl]
        field_simp
        ring
      · rw [ey, ez, hX, hY, ha]
        simp only [WeierstrassCurve.Affine.addY, WeierstrassCurve.Affine.negAddY, WeierstrassCurve.Affine.negY,
          WeierstrassCurve.Affine.addX, shortCurve, hsl]
        field_simp
        ring

/-- `padd` as a chain of cases, the last selection first (R175). -/
theorem padd_eq (c : Bank) (aReg : Elem) (t u : Triple) :
    padd c aReg t u =
      if t.z = 0 then u else if u.z = 0 then t
      else if paddH c t u = 0 ∧ paddRr c t u = 0 then pdbl c aReg t else paddGeneric c t u := by
  simp only [padd, isZeroElem, Bool.and_eq_true, decide_eq_true_eq]

/-- `padd` represents the sum, in every case (R177). -/
theorem padd_rep (hc : c.Valid) [Fact c.m.toNat.Prime] {aReg : Elem} (ha : stdVal _ aReg = a) {t u : Triple}
    {P Q : (shortCurve c.m.toNat a b).Point} (ht : RepTriple _ t P) (hu : RepTriple _ u Q) :
    RepTriple _ (padd c aReg t u) (P + Q) := by
  rw [padd_eq]
  have hz1 := ht.canonicalAll.2.2
  have hz2 := hu.canonicalAll.2.2
  match P, ht with
  | .zero, ht =>
    rw [if_pos (show t.z = 0 from ht.2), ← WeierstrassCurve.Affine.Point.zero_def, zero_add]
    exact hu
  | .some x₁ y₁ h₁, ht =>
    obtain ⟨hz1', hX1, hY1⟩ := ht.2
    rw [if_neg hz1']
    match Q, hu with
    | .zero, hu =>
      rw [if_pos (show u.z = 0 from hu.2), ← WeierstrassCurve.Affine.Point.zero_def, add_zero]
      exact ht
    | .some x₂ y₂ h₂, hu =>
      obtain ⟨hz2', hX2, hY2⟩ := hu.2
      rw [if_neg hz2']
      have hZ1 : stdVal c.m.toNat t.z ≠ 0 := fun h => hz1' ((stdVal_eq_zero hc hz1).mp h)
      have hZ2 : stdVal c.m.toNat u.z ≠ 0 := fun h => hz2' ((stdVal_eq_zero hc hz2).mp h)
      obtain ⟨⟨hH, eH⟩, hR, eR⟩ := paddHR_std hc ht.canonicalAll hu.canonicalAll
      have eH' : stdVal c.m.toNat (paddH c t u) = (x₂ - x₁) * (stdVal _ t.z ^ 2 * stdVal _ u.z ^ 2) := by
        rw [eH, hX1, hX2]; ring
      have eR' : stdVal c.m.toNat (paddRr c t u) = (y₂ - y₁) * (stdVal _ t.z ^ 3 * stdVal _ u.z ^ 3) := by
        rw [eR, hY1, hY2]; ring
      have zH : paddH c t u = 0 ↔ x₁ = x₂ := by
        rw [← stdVal_eq_zero hc hH, eH', mul_eq_zero, sub_eq_zero, eq_comm]
        simp [hZ1, hZ2]
      have zR : paddRr c t u = 0 ↔ y₁ = y₂ := by
        rw [← stdVal_eq_zero hc hR, eR', mul_eq_zero, sub_eq_zero, eq_comm]
        simp [hZ1, hZ2]
      by_cases hxy : x₁ = x₂ ∧ y₁ = y₂
      · rw [if_pos ⟨zH.mpr hxy.1, zR.mpr hxy.2⟩]
        obtain ⟨rfl, rfl⟩ := hxy
        exact pdbl_rep hc ha ht
      · rw [if_neg fun h => hxy ⟨zH.mp h.1, zR.mp h.2⟩]
        obtain ⟨hcan, e⟩ := paddGeneric_std hc ht.canonicalAll hu.canonicalAll
        obtain ⟨ex, ey, ez⟩ := e _ _ _ _ rfl rfl rfl rfl
        refine ⟨hcan, ?_⟩
        by_cases hx : x₁ = x₂
        · have hy : y₁ = (shortCurve c.m.toNat a b).negY x₂ y₂ :=
            (WeierstrassCurve.Affine.Y_eq_of_X_eq h₁.1 h₂.1 hx).resolve_left fun h => hxy ⟨hx, h⟩
          rw [WeierstrassCurve.Affine.Point.add_of_Y_eq hx hy]
          show (paddGeneric c t u).z = 0
          rw [← stdVal_eq_zero hc hcan.2.2, ez, zH.mpr hx, stdVal_zero, zero_mul, zero_mul]
        · rw [WeierstrassCurve.Affine.Point.add_of_X_ne hx]
          have hsl := WeierstrassCurve.Affine.slope_of_X_ne (W := shortCurve c.m.toNat a b) (y₁ := y₁) (y₂ := y₂) hx
          simp only [shortCurve] at hsl
          have hd : x₁ - x₂ ≠ 0 := sub_ne_zero.mpr hx
          have hd' : x₂ - x₁ ≠ 0 := sub_ne_zero.mpr (Ne.symm hx)
          refine ⟨?_, ?_, ?_⟩
          · rw [Ne, ← stdVal_eq_zero hc hcan.2.2, ez, eH']
            exact mul_ne_zero (mul_ne_zero (mul_ne_zero hd' (mul_ne_zero (pow_ne_zero 2 hZ1) (pow_ne_zero 2 hZ2)))
              hZ1) hZ2
          · rw [ex, ez, eH', eR', hX1]
            simp only [WeierstrassCurve.Affine.addX, shortCurve, hsl]
            field_simp
            ring
          · rw [ey, ez, eH', eR', hX1, hY1]
            simp only [WeierstrassCurve.Affine.addY, WeierstrassCurve.Affine.negAddY, WeierstrassCurve.Affine.negY,
              WeierstrassCurve.Affine.addX, shortCurve, hsl]
            field_simp
            ring

/-- `toaff` gives the affine form of the point, and says whether it is infinity (R180). -/
theorem toaff_rep (hc : c.Valid) [Fact c.m.toNat.Prime] {t : Triple} {P : (shortCurve c.m.toNat a b).Point}
    (h : RepTriple _ t P) : RepPair _ (toaff c t).1 P ∧ ((toaff c t).2 = true ↔ P = 0) := by
  obtain ⟨hcan, hinf, ex, ey⟩ := toaff_std hc Fact.out h.canonicalAll
  rw [hinf, decide_eq_true_eq]
  match P, h with
  | .zero, h =>
    have hz : t.z = 0 := h.2
    refine ⟨⟨hcan, ?_, ?_⟩, by simp [hz, WeierstrassCurve.Affine.Point.zero_def]⟩ <;>
      simp [toaff, isZeroElem, hz]
  | .some x y hxy, h =>
    obtain ⟨hz, hX, hY⟩ := h.2
    have hZ : stdVal c.m.toNat t.z ≠ 0 := fun e => hz ((stdVal_eq_zero hc h.canonicalAll.2.2).mp e)
    refine ⟨⟨hcan, ?_, ?_⟩, fun e => absurd e hz, fun e => absurd e (WeierstrassCurve.Affine.Point.some_ne_zero _)⟩
    · rw [ex, hX]; field_simp
    · rw [ey, hY]; field_simp

/-- The base pair as a triple represents the same point; `b ≠ 0` keeps (0, 0) off the curve (R27, R181). -/
theorem smulBase_rep (hc : c.Valid) (hb : b ≠ 0) {q : Pair} {B : (shortCurve c.m.toNat a b).Point}
    (h : RepPair _ q B) : RepTriple _ (smulBase c q) B := by
  obtain ⟨hone, eone⟩ := montOne_std hc
  have hne : montOne c ≠ 0 := by
    intro e
    rw [e, stdVal_zero] at eone
    have : Fact (1 < c.m.toNat) := ⟨by have := hc.2.1; omega⟩
    exact zero_ne_one eone
  obtain ⟨⟨hx, hy⟩, h⟩ := h
  match B, h with
  | .zero, h =>
    obtain ⟨h1, h2⟩ := h
    have hz : (smulBase c q).z = 0 := by simp [smulBase, isZeroElem, h1, h2]
    exact ⟨⟨hx, hy, by rw [hz]; exact hc.canonical_zero⟩, hz⟩
  | .some x y hxy, h =>
    obtain ⟨h1, h2⟩ := h
    have hz : (smulBase c q).z = montOne c := by
      by_cases h0 : q.x = 0 ∧ q.y = 0
      · exfalso
        rw [h0.1, stdVal_zero] at h1
        rw [h0.2, stdVal_zero] at h2
        have he := (WeierstrassCurve.Affine.equation_iff _ _).mp hxy.1
        simp only [← h1, ← h2, shortCurve] at he
        apply hb
        linear_combination -he
      · simp only [smulBase]
        rw [if_neg fun h => h0 (by simpa only [isZeroElem, Bool.and_eq_true, decide_eq_true_eq] using h)]
    refine ⟨⟨hx, hy, by rw [hz]; exact hone⟩, by rw [hz]; exact hne, ?_, ?_⟩
    · rw [hz, eone]; simp only [smulBase, one_pow, mul_one]; exact h1
    · rw [hz, eone]; simp only [smulBase, one_pow, mul_one]; exact h2

theorem Elem.onValue_eq {α : Type} (v : Elem) (k : Elem → α) : Elem.onValue v k = k v := by
  unfold Elem.onValue
  split
  · rename_i h
    rw [show v = 0 from BitVec.eq_of_toNat_eq h]
  · rename_i n h
    rw [show n + 1 = v.toNat from h.symm, BitVec.ofNat_toNat, BitVec.setWidth_eq]

theorem Triple.onValue_eq {α : Type} (t : Triple) (k : Triple → α) : t.onValue k = k t := by
  simp only [Triple.onValue, Elem.onValue_eq]

/-- One iteration of the ladder (R181). -/
theorem smulLoop_succ (c : Bank) (aReg k : Elem) (q : Triple) (n : Nat) (acc : Triple) :
    smulLoop c aReg k q (n + 1) acc =
      smulLoop c aReg k q n
        (if k.getLsbD n then padd c aReg (pdbl c aReg acc) q else pdbl c aReg acc) := by
  simp only [smulLoop, Triple.onValue_eq]

/-- `n` iterations of the ladder: double `n` times and add the low `n` bits of the scalar (R181, R183). -/
theorem smulLoop_rep (hc : c.Valid) [Fact c.m.toNat.Prime] {aReg : Elem} (ha : stdVal _ aReg = a) (k : Elem)
    {q : Triple} {B : (shortCurve c.m.toNat a b).Point} (hq : RepTriple _ q B) (n : Nat) {acc : Triple}
    {P : (shortCurve c.m.toNat a b).Point} (hacc : RepTriple _ acc P) :
    RepTriple _ (smulLoop c aReg k q n acc) (2 ^ n • P + (k.toNat % 2 ^ n) • B) := by
  induction n generalizing acc P with
  | zero => simpa [smulLoop, Nat.mod_one] using hacc
  | succ n ih =>
    have hd := pdbl_rep hc ha hacc
    have hs := padd_rep hc ha hd hq
    have hbit : k.toNat % 2 ^ (n + 1) = k.toNat % 2 ^ n + (if k.getLsbD n then 2 ^ n else 0) := by
      rw [pow_succ, Nat.mod_mul, BitVec.getLsbD, Nat.testBit_eq_decide_div_mod_eq]
      rcases Nat.mod_two_eq_zero_or_one (k.toNat / 2 ^ n) with h | h <;> simp [h]
    rw [hbit, smulLoop_succ]
    split
    · have := ih hs
      rwa [show 2 ^ n • (P + P + B) + (k.toNat % 2 ^ n) • B =
        2 ^ (n + 1) • P + (k.toNat % 2 ^ n + 2 ^ n) • B by
          rw [← two_nsmul, nsmul_add, add_nsmul, ← mul_nsmul', pow_succ]; abel] at this
    · have := ih hd
      rwa [show 2 ^ n • (P + P) = 2 ^ (n + 1) • P by rw [← two_nsmul, ← mul_nsmul', pow_succ], ← add_zero (_ % _)]
        at this

/-- `smul` computes the multiple of the point, for every 256-bit scalar (R183). -/
theorem smul_rep (hc : c.Valid) [Fact c.m.toNat.Prime] (hb : b ≠ 0) {aReg : Elem} (ha : stdVal _ aReg = a)
    (k : Elem) {q : Pair} {B : (shortCurve c.m.toNat a b).Point} (hq : RepPair _ q B) :
    RepPair _ (smul c aReg k q).1 (k.toNat • B) ∧ ((smul c aReg k q).2 = true ↔ k.toNat • B = 0) := by
  have h0 : RepTriple c.m.toNat { x := 0, y := 0, z := 0 } (0 : (shortCurve c.m.toNat a b).Point) :=
    ⟨⟨hc.canonical_zero, hc.canonical_zero, hc.canonical_zero⟩, rfl⟩
  have h := smulLoop_rep hc ha k (smulBase_rep hc hb hq) 256 h0
  rw [nsmul_zero, zero_add, Nat.mod_eq_of_lt k.isLt] at h
  exact toaff_rep hc h

end Group

end Sys2Proof.Machine
end

