-- ==== Sys2Proof/Laws/Decode.lean ====
section
/-! SUPPORT. The fields of an encoded command read back (spec/30_encoding.md R91, R92), and the must-be-zero test of the
decoder as a condition on bits. -/

namespace Sys2Proof

/-- Format R as a number: each field at its place (R91). -/
theorem formR_toNat (op : BitVec 8) (rd ra rb : Reg) (cond : BitVec 4) (ctx : BitVec 1) :
    (formR op rd ra rb cond ctx).toNat =
      op.toNat * 2 ^ 24 + rd.val * 2 ^ 20 + ra.val * 2 ^ 16 + rb.val * 2 ^ 12 + cond.toNat * 2 ^ 8 + ctx.toNat * 2 ^ 7 := by
  have h2 : rd.val < 2 ^ 4 := rd.isLt
  have h3 : ra.val < 2 ^ 4 := ra.isLt
  have h4 : rb.val < 2 ^ 4 := rb.isLt
  have h5 := cond.isLt
  have h6 := ctx.isLt
  have h7 : (0#7).toNat < 2 ^ 7 := by decide
  unfold formR
  simp only [BitVec.toNat_append, BitVec.toNat_ofFin]
  rw [← Nat.shiftLeft_add_eq_or_of_lt h7, ← Nat.shiftLeft_add_eq_or_of_lt h6, ← Nat.shiftLeft_add_eq_or_of_lt h5,
    ← Nat.shiftLeft_add_eq_or_of_lt h4, ← Nat.shiftLeft_add_eq_or_of_lt h3, ← Nat.shiftLeft_add_eq_or_of_lt h2]
  simp only [Nat.shiftLeft_eq, BitVec.toNat_ofNat]
  omega

/-- Format I as a number (R92). -/
theorem formI_toNat (op : BitVec 8) (rd : Reg) (imm16 : BitVec 16) :
    (formI op rd imm16).toNat = op.toNat * 2 ^ 24 + rd.val * 2 ^ 20 + imm16.toNat := by
  have h2 : rd.val < 2 ^ 4 := rd.isLt
  have h3 := imm16.isLt
  have h7 : (0#4).toNat < 2 ^ 4 := by decide
  unfold formI
  simp only [BitVec.toNat_append, BitVec.toNat_ofFin]
  rw [← Nat.shiftLeft_add_eq_or_of_lt h3, ← Nat.shiftLeft_add_eq_or_of_lt h7, ← Nat.shiftLeft_add_eq_or_of_lt h2]
  simp only [Nat.shiftLeft_eq, BitVec.toNat_ofNat]
  omega

section Fields

variable (op : BitVec 8) (rd ra rb : Reg) (cond : BitVec 4) (ctx : BitVec 1) (imm16 : BitVec 16)

theorem opField_formR : opField (formR op rd ra rb cond ctx) = op := by
  have h1 := op.isLt
  have h5 := cond.isLt
  have h6 := ctx.isLt
  apply BitVec.eq_of_toNat_eq
  simp only [opField, BitVec.extractLsb'_toNat, Nat.shiftRight_eq_div_pow, formR_toNat]
  omega

theorem rdField_formR : rdField (formR op rd ra rb cond ctx) = rd := by
  have h5 := cond.isLt
  have h6 := ctx.isLt
  apply Fin.ext
  simp only [rdField, BitVec.val_toFin, BitVec.extractLsb'_toNat, Nat.shiftRight_eq_div_pow, formR_toNat]
  omega

theorem raField_formR : raField (formR op rd ra rb cond ctx) = ra := by
  have h5 := cond.isLt
  have h6 := ctx.isLt
  apply Fin.ext
  simp only [raField, BitVec.val_toFin, BitVec.extractLsb'_toNat, Nat.shiftRight_eq_div_pow, formR_toNat]
  omega

theorem rbField_formR : rbField (formR op rd ra rb cond ctx) = rb := by
  have h5 := cond.isLt
  have h6 := ctx.isLt
  apply Fin.ext
  simp only [rbField, BitVec.val_toFin, BitVec.extractLsb'_toNat, Nat.shiftRight_eq_div_pow, formR_toNat]
  omega

theorem condField_formR : condField (formR op rd ra rb cond ctx) = cond := by
  have h5 := cond.isLt
  have h6 := ctx.isLt
  apply BitVec.eq_of_toNat_eq
  simp only [condField, BitVec.extractLsb'_toNat, Nat.shiftRight_eq_div_pow, formR_toNat]
  omega

theorem ctxField_formR : ctxField (formR op rd ra rb cond ctx) = ctx := by
  have h6 := ctx.isLt
  apply BitVec.eq_of_toNat_eq
  simp only [ctxField, BitVec.extractLsb'_toNat, Nat.shiftRight_eq_div_pow, formR_toNat]
  omega

theorem opField_formI : opField (formI op rd imm16) = op := by
  have h1 := op.isLt
  have h3 := imm16.isLt
  apply BitVec.eq_of_toNat_eq
  simp only [opField, BitVec.extractLsb'_toNat, Nat.shiftRight_eq_div_pow, formI_toNat]
  omega

theorem rdField_formI : rdField (formI op rd imm16) = rd := by
  have h3 := imm16.isLt
  apply Fin.ext
  simp only [rdField, BitVec.val_toFin, BitVec.extractLsb'_toNat, Nat.shiftRight_eq_div_pow, formI_toNat]
  omega

theorem immField_formI : immField (formI op rd imm16) = imm16 := by
  have h3 := imm16.isLt
  apply BitVec.eq_of_toNat_eq
  simp only [immField, BitVec.extractLsb'_toNat, Nat.shiftRight_eq_div_pow, formI_toNat]
  omega

/-- The bits of a format R word, field by field. -/
theorem formR_cast :
    formR op rd ra rb cond ctx = BitVec.cast (show 8 + 4 + 4 + 4 + 4 + 1 + 7 = 32 by rfl)
      (op ++ BitVec.ofFin (w := 4) rd ++ BitVec.ofFin (w := 4) ra ++ BitVec.ofFin (w := 4) rb ++ cond ++ ctx ++ 0#7) :=
  rfl

/-- The bits of a format I word, field by field. -/
theorem formI_cast :
    formI op rd imm16 = BitVec.cast (show 8 + 4 + 4 + 16 = 32 by rfl)
      (op ++ BitVec.ofFin (w := 4) rd ++ 0#4 ++ imm16) :=
  rfl

end Fields

/-! ### What the decoder's checks let through -/

theorem withZeros_zero {w zeros : Word32} (h : w &&& zeros = 0) (d : Except DecodeError Instr) :
    withZeros w zeros d = d := if_pos h

theorem withZeros_ok {w zeros : Word32} {d : Except DecodeError Instr} {i : Instr} (h : withZeros w zeros d = .ok i) :
    w &&& zeros = 0 ∧ d = .ok i := by
  unfold withZeros at h
  split at h
  · exact ⟨‹_›, h⟩
  · cases h

theorem withBounds_ok {i j : Instr} (h : withBounds i = .ok j) : i.wf = true ∧ i = j := by
  unfold withBounds at h
  split at h
  · exact ⟨‹_›, by injection h⟩
  · cases h

theorem withCond_ok {rd ra : Reg} {code : BitVec 4} {i : Instr} (h : withCond rd ra code = .ok i) :
    ∃ c, Cond.ofCode code = some c ∧ i = .cmov rd ra c := by
  unfold withCond at h
  split at h
  · rename_i c hc
    exact ⟨c, hc, by injection h with h; exact h.symm⟩
  · cases h

@[simp] theorem Cond.ofCode_code (c : Cond) : Cond.ofCode c.code = some c := by cases c <;> rfl

/-- The code of the condition a code names is that code, and it is at most 9 (R97). -/
theorem Cond.code_of_ofCode {b : BitVec 4} {c : Cond} (h : Cond.ofCode b = some c) : c.code = b ∧ b.toNat ≤ 9 := by
  revert b c; decide

@[simp] theorem Ctx.ofBit_bit (c : Ctx) : Ctx.ofBit c.bit = c := by cases c <;> rfl

@[simp] theorem Ctx.bit_ofBit (b : BitVec 1) : (Ctx.ofBit b).bit = b := by revert b; decide

end Sys2Proof
end

