-- ==== Sys2Proof/Laws/PerInstr.lean ====
section
/-! SUPPORT. The family `RowMatch` of statements made per command: its encoding is a word of its row of the opcode
table, that is `w AND mask = match` with the row's mask and match (spec/30_encoding.md R96). -/

namespace Sys2Proof.Laws

open Sys2Proof

/-- The masks of R96, by command. -/
def rowMask : Instr → Word32
  | .nop => 0xFFFFFFFF
  | .setsmall _ _ => 0xFF0F0000
  | .add _ _ _ => 0xFF000FFF
  | .sub _ _ _ => 0xFF000FFF
  | .cmov _ _ _ => 0xFF00F0FF
  | .iszero _ => 0xFFF0FFFF
  | .eq _ _ => 0xFFF00FFF
  | .frombytes _ _ => 0xFF0FFF7F
  | .tobytes _ _ => 0xFFF0FF7F
  | .montmul _ _ _ _ => 0xFF000F7F
  | .tomont _ _ _ => 0xFF00FF7F
  | .frommont _ _ _ => 0xFF00FF7F
  | .modadd _ _ _ _ => 0xFF000F7F
  | .modsub _ _ _ _ => 0xFF000F7F
  | .finv _ _ _ => 0xFF00FF7F
  | .pdbl _ _ => 0xFF00FFFF
  | .padd _ _ _ => 0xFF000FFF
  | .toaffine _ _ => 0xFF00FFFF
  | .scalarmul _ _ _ => 0xFF000FFF
  | .lock => 0xFFFFFFFF
  | .zeroize => 0xFFFFFFFF

/-- The match values of R96: `op << 24` in every row. -/
def rowMatch : Instr → Word32
  | .nop => 0x00000000
  | .setsmall _ _ => 0x01000000
  | .add _ _ _ => 0x02000000
  | .sub _ _ _ => 0x03000000
  | .cmov _ _ _ => 0x04000000
  | .iszero _ => 0x05000000
  | .eq _ _ => 0x06000000
  | .frombytes _ _ => 0x08000000
  | .tobytes _ _ => 0x09000000
  | .montmul _ _ _ _ => 0x0A000000
  | .tomont _ _ _ => 0x0B000000
  | .frommont _ _ _ => 0x0C000000
  | .modadd _ _ _ _ => 0x0D000000
  | .modsub _ _ _ _ => 0x0E000000
  | .finv _ _ _ => 0x0F000000
  | .pdbl _ _ => 0x10000000
  | .padd _ _ _ => 0x11000000
  | .toaffine _ _ => 0x12000000
  | .scalarmul _ _ _ => 0x13000000
  | .lock => 0x1E000000
  | .zeroize => 0x1F000000

/-- The encoding of the command lies in its row. -/
def RowMatch.Statement (i : Instr) : Prop := encode i &&& rowMask i = rowMatch i

namespace RowMatch

theorem nop : Statement .nop := by unfold Statement; decide
theorem setsmall (rd : Reg) (imm16 : BitVec 16) : Statement (.setsmall rd imm16) := by
  simp only [Statement, encode, rowMask, rowMatch, formI_cast]
  refine BitVec.eq_of_getLsbD_eq fun i hi => ?_
  interval_cases i <;> simp only [BitVec.getLsbD_and, BitVec.getLsbD_cast, BitVec.getLsbD_append] <;> simp
theorem add (rd ra rb : Reg) : Statement (.add rd ra rb) := by
  simp only [Statement, encode, rowMask, rowMatch, formR_cast]
  refine BitVec.eq_of_getLsbD_eq fun i hi => ?_
  interval_cases i <;> simp only [BitVec.getLsbD_and, BitVec.getLsbD_cast, BitVec.getLsbD_append] <;> simp
theorem sub (rd ra rb : Reg) : Statement (.sub rd ra rb) := by
  simp only [Statement, encode, rowMask, rowMatch, formR_cast]
  refine BitVec.eq_of_getLsbD_eq fun i hi => ?_
  interval_cases i <;> simp only [BitVec.getLsbD_and, BitVec.getLsbD_cast, BitVec.getLsbD_append] <;> simp
theorem cmov (rd ra : Reg) (cond : Cond) : Statement (.cmov rd ra cond) := by
  simp only [Statement, encode, rowMask, rowMatch, formR_cast]
  refine BitVec.eq_of_getLsbD_eq fun i hi => ?_
  interval_cases i <;> simp only [BitVec.getLsbD_and, BitVec.getLsbD_cast, BitVec.getLsbD_append] <;> simp
theorem iszero (ra : Reg) : Statement (.iszero ra) := by
  simp only [Statement, encode, rowMask, rowMatch, formR_cast]
  refine BitVec.eq_of_getLsbD_eq fun i hi => ?_
  interval_cases i <;> simp only [BitVec.getLsbD_and, BitVec.getLsbD_cast, BitVec.getLsbD_append] <;> simp
theorem eq (ra rb : Reg) : Statement (.eq ra rb) := by
  simp only [Statement, encode, rowMask, rowMatch, formR_cast]
  refine BitVec.eq_of_getLsbD_eq fun i hi => ?_
  interval_cases i <;> simp only [BitVec.getLsbD_and, BitVec.getLsbD_cast, BitVec.getLsbD_append] <;> simp
theorem frombytes (rd : Reg) (ctx : Ctx) : Statement (.frombytes rd ctx) := by
  simp only [Statement, encode, rowMask, rowMatch, formR_cast]
  refine BitVec.eq_of_getLsbD_eq fun i hi => ?_
  interval_cases i <;> simp only [BitVec.getLsbD_and, BitVec.getLsbD_cast, BitVec.getLsbD_append] <;> simp
theorem tobytes (ra : Reg) (ctx : Ctx) : Statement (.tobytes ra ctx) := by
  simp only [Statement, encode, rowMask, rowMatch, formR_cast]
  refine BitVec.eq_of_getLsbD_eq fun i hi => ?_
  interval_cases i <;> simp only [BitVec.getLsbD_and, BitVec.getLsbD_cast, BitVec.getLsbD_append] <;> simp
theorem montmul (rd ra rb : Reg) (ctx : Ctx) : Statement (.montmul rd ra rb ctx) := by
  simp only [Statement, encode, rowMask, rowMatch, formR_cast]
  refine BitVec.eq_of_getLsbD_eq fun i hi => ?_
  interval_cases i <;> simp only [BitVec.getLsbD_and, BitVec.getLsbD_cast, BitVec.getLsbD_append] <;> simp
theorem tomont (rd ra : Reg) (ctx : Ctx) : Statement (.tomont rd ra ctx) := by
  simp only [Statement, encode, rowMask, rowMatch, formR_cast]
  refine BitVec.eq_of_getLsbD_eq fun i hi => ?_
  interval_cases i <;> simp only [BitVec.getLsbD_and, BitVec.getLsbD_cast, BitVec.getLsbD_append] <;> simp
theorem frommont (rd ra : Reg) (ctx : Ctx) : Statement (.frommont rd ra ctx) := by
  simp only [Statement, encode, rowMask, rowMatch, formR_cast]
  refine BitVec.eq_of_getLsbD_eq fun i hi => ?_
  interval_cases i <;> simp only [BitVec.getLsbD_and, BitVec.getLsbD_cast, BitVec.getLsbD_append] <;> simp
theorem modadd (rd ra rb : Reg) (ctx : Ctx) : Statement (.modadd rd ra rb ctx) := by
  simp only [Statement, encode, rowMask, rowMatch, formR_cast]
  refine BitVec.eq_of_getLsbD_eq fun i hi => ?_
  interval_cases i <;> simp only [BitVec.getLsbD_and, BitVec.getLsbD_cast, BitVec.getLsbD_append] <;> simp
theorem modsub (rd ra rb : Reg) (ctx : Ctx) : Statement (.modsub rd ra rb ctx) := by
  simp only [Statement, encode, rowMask, rowMatch, formR_cast]
  refine BitVec.eq_of_getLsbD_eq fun i hi => ?_
  interval_cases i <;> simp only [BitVec.getLsbD_and, BitVec.getLsbD_cast, BitVec.getLsbD_append] <;> simp
theorem finv (rd ra : Reg) (ctx : Ctx) : Statement (.finv rd ra ctx) := by
  simp only [Statement, encode, rowMask, rowMatch, formR_cast]
  refine BitVec.eq_of_getLsbD_eq fun i hi => ?_
  interval_cases i <;> simp only [BitVec.getLsbD_and, BitVec.getLsbD_cast, BitVec.getLsbD_append] <;> simp
theorem pdbl (rd ra : Reg) : Statement (.pdbl rd ra) := by
  simp only [Statement, encode, rowMask, rowMatch, formR_cast]
  refine BitVec.eq_of_getLsbD_eq fun i hi => ?_
  interval_cases i <;> simp only [BitVec.getLsbD_and, BitVec.getLsbD_cast, BitVec.getLsbD_append] <;> simp
theorem padd (rd ra rb : Reg) : Statement (.padd rd ra rb) := by
  simp only [Statement, encode, rowMask, rowMatch, formR_cast]
  refine BitVec.eq_of_getLsbD_eq fun i hi => ?_
  interval_cases i <;> simp only [BitVec.getLsbD_and, BitVec.getLsbD_cast, BitVec.getLsbD_append] <;> simp
theorem toaffine (rd ra : Reg) : Statement (.toaffine rd ra) := by
  simp only [Statement, encode, rowMask, rowMatch, formR_cast]
  refine BitVec.eq_of_getLsbD_eq fun i hi => ?_
  interval_cases i <;> simp only [BitVec.getLsbD_and, BitVec.getLsbD_cast, BitVec.getLsbD_append] <;> simp
theorem scalarmul (rd ra rb : Reg) : Statement (.scalarmul rd ra rb) := by
  simp only [Statement, encode, rowMask, rowMatch, formR_cast]
  refine BitVec.eq_of_getLsbD_eq fun i hi => ?_
  interval_cases i <;> simp only [BitVec.getLsbD_and, BitVec.getLsbD_cast, BitVec.getLsbD_append] <;> simp
theorem lock : Statement .lock := by unfold Statement; decide
theorem zeroize : Statement .zeroize := by unfold Statement; decide

end RowMatch

end Sys2Proof.Laws
end

