-- ==== Sys2Proof/Tests/Slice0.lean ====
section
/-! SUPPORT. The model's own tests. Expected values are those of spec/95_test_vectors.md (TV numbers in the
docstrings) or of the examples in the rules; words are written out from spec/30_encoding.md. The second half holds one
witness for each statement of Obligations.lean that has hypotheses. -/

namespace Sys2Proof.Tests

open Sys2Proof Sys2Proof.Machine Sys2Proof.Spec

-- The kernel evaluates these tests one at a time; waiting for it on a thread of its own each would exhaust the threads.
set_option Elab.async false

/-! ### Well-formedness: one ill-formed term for each check (R100) -/

theorem test_wf_pdbl_rd : (Instr.pdbl 14 0).wf = false := by decide
theorem test_wf_pdbl_ra : (Instr.pdbl 3 15).wf = false := by decide
theorem test_wf_padd_rd : (Instr.padd 14 0 3).wf = false := by decide
theorem test_wf_padd_ra : (Instr.padd 8 14 3).wf = false := by decide
theorem test_wf_padd_rb : (Instr.padd 8 0 14).wf = false := by decide
theorem test_wf_toaffine_rd : (Instr.toaffine 15 3).wf = false := by decide
theorem test_wf_toaffine_ra : (Instr.toaffine 6 14).wf = false := by decide
theorem test_wf_scalarmul_rd : (Instr.scalarmul 15 0 1).wf = false := by decide
theorem test_wf_scalarmul_rb : (Instr.scalarmul 4 0 15).wf = false := by decide
theorem test_wf_largest_bases :
    (Instr.pdbl 13 13).wf = true ∧ (Instr.padd 13 13 13).wf = true ∧ (Instr.toaffine 14 13).wf = true ∧
      (Instr.scalarmul 14 15 14).wf = true := by decide

/-! ### Decoding and encoding: the words of TV1, written out from R91, R92 and R96 -/

/-- The word decodes to the command, and the command encodes to the word. -/
def Agrees (w : Word32) (i : Instr) : Bool := decide (decode w = .ok i) && decide (encode i = w)

theorem test_decode_nop : Agrees 0x00000000 .nop = true := by decide
theorem test_decode_setsmall : Agrees 0x01301234 (.setsmall 3 0x1234) = true := by decide
theorem test_decode_add : Agrees 0x02201000 (.add 2 0 1) = true := by decide
theorem test_decode_sub : Agrees 0x03201000 (.sub 2 0 1) = true := by decide
theorem test_decode_cmov_ge : Agrees 0x04120800 (.cmov 1 2 .ge) = true := by decide
theorem test_decode_cmov_lt : Agrees 0x04FE0900 (.cmov 15 14 .lt) = true := by decide
theorem test_decode_iszero : Agrees 0x05050000 (.iszero 5) = true := by decide
theorem test_decode_eq : Agrees 0x06012000 (.eq 1 2) = true := by decide
theorem test_decode_frombytes_p : Agrees 0x08100000 (.frombytes 1 .p) = true := by decide
theorem test_decode_frombytes_n : Agrees 0x08100080 (.frombytes 1 .n) = true := by decide
theorem test_decode_tobytes : Agrees 0x090F0080 (.tobytes 15 .n) = true := by decide
theorem test_decode_montmul : Agrees 0x0A312080 (.montmul 3 1 2 .n) = true := by decide
theorem test_decode_tomont : Agrees 0x0B110000 (.tomont 1 1 .p) = true := by decide
theorem test_decode_frommont : Agrees 0x0C210080 (.frommont 2 1 .n) = true := by decide
theorem test_decode_modadd : Agrees 0x0D312000 (.modadd 3 1 2 .p) = true := by decide
theorem test_decode_modsub : Agrees 0x0E312080 (.modsub 3 1 2 .n) = true := by decide
theorem test_decode_finv : Agrees 0x0F210000 (.finv 2 1 .p) = true := by decide
theorem test_decode_pdbl : Agrees 0x10300000 (.pdbl 3 0) = true := by decide
theorem test_decode_padd : Agrees 0x11803000 (.padd 8 0 3) = true := by decide
theorem test_decode_toaffine : Agrees 0x12630000 (.toaffine 6 3) = true := by decide
theorem test_decode_scalarmul : Agrees 0x13401000 (.scalarmul 4 0 1) = true := by decide
theorem test_decode_lock : Agrees 0x1E000000 .lock = true := by decide
theorem test_decode_zeroize : Agrees 0x1F000000 .zeroize = true := by decide
theorem test_decode_table_word : decodeTableWord 32 0x13EFE000 = some (.scalarmul 14 15 14) := by decide

/-- TV2, one word for each of the four causes of R98. -/
theorem test_illegal_opcodes :
    decode 0x07000000 = .error (.unassignedOpcode 0x07) ∧ decode 0x14000000 = .error (.unassignedOpcode 0x14) ∧
      decode 0x1D000000 = .error (.unassignedOpcode 0x1D) ∧ decode 0x20000000 = .error (.unassignedOpcode 0x20) ∧
      decode 0xFFFFFFFF = .error (.unassignedOpcode 0xFF) := by decide
theorem test_illegal_unused_fields :
    [0x00000001, 0x00100000, 0x01310005, 0x02201100, 0x02201080, 0x02201040, 0x04121800, 0x05150000, 0x06112000,
      0x08110000, 0x08100001, 0x09110000, 0x0A312100, 0x0B112000, 0x0F212000, 0x10300080, 0x10301000, 0x13401080,
      0x1E000080, 0x1F000100].all (fun w => decide (decode w = .error .nonzeroUnusedField)) = true := by decide
theorem test_illegal_conditions :
    decode 0x04120A00 = .error .reservedCondition ∧ decode 0x04120F00 = .error .reservedCondition := by decide
theorem test_illegal_bounds :
    [0x10E00000, 0x100F0000, 0x1180E000, 0x11E03000, 0x12F30000, 0x126E0000, 0x13F01000, 0x1340F000].all
      (fun w => decide (decode w = .error .groupBound)) = true := by decide

/-! ### Single commands on small states -/

/-- The configuration EX-F23 of spec/95_test_vectors.md section 1, locked, with `F0, F1, …` as listed. -/
def ex23 (regs : List Elem) : State :=
  { State.reset with
    f := Vector.ofFn fun i => regs.getD i.val 0
    locked := true
    ctxP := { m := 23, r2 := 18, m0inv := 0x1642C859 }
    ctxA := 8
    ctxN := { m := 29, r2 := 24, m0inv := 0xB08D3DCB } }

/-- The same before LOCK. -/
def ex23Unlocked (regs : List Elem) : State := { ex23 regs with locked := false }

/-- `s` with the given 32-byte string. -/
def withBytes (d : Vector Byte 32) (s : State) : State := { s with dbuf := d }

/-- The string of the number `v` below 256. -/
def lastByte (v : Byte) : Vector Byte 32 := (Vector.replicate 32 0).set 31 v

/-- After the command word `w`: the register `r`, `STATUS` and `FLAGS`, as the host sees them. -/
def after (w : Word32) (s : State) (r : Reg) : Option (Nat × Nat × Nat) :=
  match runCommand w s with
  | .next t => some ((t.getF r).toNat, (hostRead 0x004 t).toNat, (hostRead 0x008 t).toNat)
  | _ => none

/-- TV20. -/
theorem test_setsmall : after 0x01301234 (ex23 [0, 0, 0, 7]) 3 = some (0x1234, 1, 0) := by decide +kernel
/-- TV21: wrap with carry; and the overlap `ADD F1, F1, F1`. -/
theorem test_add_wraps : after 0x02201000 (ex23 [BitVec.allOnes 256, 2]) 2 = some (1, 1, 1) := by decide +kernel
theorem test_add_overlap : after 0x02111000 (ex23 [0, BitVec.allOnes 256]) 1 = some (2 ^ 256 - 2, 1, 1) := by
  decide +kernel
/-- TV22. -/
theorem test_sub_borrows : after 0x03201000 (ex23 [5, 7]) 2 = some (2 ^ 256 - 2, 1, 2) := by decide +kernel
theorem test_sub_equal : after 0x03201000 (ex23 [23, 23]) 2 = some (0, 1, 0) := by decide +kernel
/-- TV23, the rows GE and LT at `CY = 0, BW = 1`. -/
theorem test_cmov_ge_false : after 0x04120800 { ex23 [0, 111, 222] with bw := true } 1 = some (111, 1, 2) := by
  decide +kernel
theorem test_cmov_lt_true : after 0x04120900 { ex23 [0, 111, 222] with bw := true } 1 = some (222, 1, 2) := by
  decide +kernel
/-- TV24. -/
theorem test_iszero_high_bit : after 0x05050000 (ex23 [0, 0, 0, 0, 0, 2 ^ 255]) 5 = some (2 ^ 255, 1, 0) := by
  decide +kernel
theorem test_eq : after 0x06012000 (ex23 [0, 7, 7]) 1 = some (7, 1, 4) := by decide +kernel
/-- R140, example: `v = 5` converts, `v = 23 = p` is out of range. -/
theorem test_frombytes : after 0x08100000 (withBytes (lastByte 5) (ex23 [])) 1 = some (17, 1, 0) := by decide +kernel
theorem test_frombytes_range : after 0x08100000 (withBytes (lastByte 23) (ex23 [0, 99])) 1 = some (99, 0x11, 0) := by
  decide +kernel
/-- R141, example; the word at 0x05C is TV13. -/
theorem test_tobytes :
    (match runCommand 0x09010000 (ex23 [0, 17]) with
      | .next t => some ((hostRead 0x05C t).toNat, (t.getF 1).toNat)
      | _ => none) = some (0x05000000, 17) := by decide +kernel
/-- R143, example. -/
theorem test_montmul : after 0x0A312000 (ex23 [0, 17, 10]) 3 = some (4, 1, 0) := by decide +kernel
/-- R147 and R148, examples. -/
theorem test_tomont : after 0x0B110000 (ex23 [0, 1]) 1 = some (8, 1, 0) := by decide +kernel
theorem test_frommont : after 0x0C210080 (ex23 [0, 16]) 2 = some (1, 1, 0) := by decide +kernel
/-- R151 and R153, examples. -/
theorem test_modadd : after 0x0D312000 (ex23 [0, 20, 9]) 3 = some (6, 1, 0) := by decide +kernel
theorem test_modsub : after 0x0E312000 (ex23 [0, 3, 9]) 3 = some (17, 1, 0) := by decide +kernel
/-- R155, example; zero gives 0 and the failure code. -/
theorem test_finv : after 0x0F210000 (ex23 [0, 17]) 2 = some (20, 1, 0) := by decide +kernel
/-- R214 with U7: FINV of zero writes 0 in every bank, here in one of modulus 2, where the exponentiation gives 1. -/
theorem test_finv_zero :
    after 0x0F210000 { ex23 [0, 0, 5] with ctxP := { m := 2, r2 := 1, m0inv := 0xFFFFFFFF } } 2 = some (0, 0x21, 0) := by
  decide +kernel
/-- R173, example: `2G = (20, 17, 15)`. -/
theorem test_pdbl : after 0x10300000 (ex23 [8, 19, 8]) 4 = some (17, 1, 0) := by decide +kernel
/-- R176: `G + 2G = (7, 13, 11)`, and opposite points give `(8, 15, 0)` with `INF`. -/
theorem test_padd : after 0x11803000 (ex23 [8, 19, 8, 20, 17, 15]) 10 = some (11, 1, 0) := by decide +kernel
theorem test_padd_opposite : after 0x11803000 (ex23 [8, 19, 8, 8, 4, 8]) 9 = some (15, 1, 8) := by decide +kernel
/-- R179, example, and the sentinel. -/
theorem test_toaffine : after 0x12630000 (ex23 [0, 0, 0, 20, 17, 15]) 7 = some (6, 1, 0) := by decide +kernel
theorem test_toaffine_infinity : after 0x12630000 (ex23 [0, 0, 0, 5, 7, 0, 1, 1]) 7 = some (0, 1, 8) := by
  decide +kernel
/-- R182: `5G = (9, 10)`, and `29 G` is infinity. -/
theorem test_scalarmul : after 0x13401000 (ex23 [5, 8, 19]) 5 = some (10, 1, 0) := by decide +kernel
theorem test_scalarmul_order : after 0x13401000 (ex23 [29, 8, 19]) 4 = some (0, 1, 8) := by decide +kernel
/-- R200, R201, R202. -/
theorem test_nop : after 0x00000000 { ex23 [3] with err := .outOfRange } 0 = some (3, 1, 0) := by decide +kernel
theorem test_lock : after 0x1E000000 (ex23Unlocked [3]) 0 = some (3, 1, 0) := by decide +kernel
theorem test_zeroize : after 0x1F000000 { ex23 [3] with cy := true, inf := true } 0 = some (0, 1, 0) := by
  decide +kernel
/-- TV3: an illegal word before the unlocked engine's `NotConfigured`. -/
theorem test_priority_illegal : after 0x10E00000 (ex23Unlocked []) 0 = some (0, 0x50, 0) := by decide +kernel
theorem test_priority_not_configured : after 0x10300000 (ex23Unlocked []) 0 = some (0, 0x60, 0) := by decide +kernel

/-! ### Steps -/

/-- The whole step from reset: the port write of a command word runs it. -/
theorem test_step_runs_word :
    step (State.reset.withFetchWord 32 0x01301234) = exec (.setsmall 3 0x1234) State.reset := by rfl
/-- TV15: a write to a context after LOCK is ignored. -/
theorem test_locked_context_write :
    step { ex23 [] with pending := [.write 32 0x100 29] } = .next (ex23 []) := by rfl
/-- TV11: the last word of the window is limb 7 of F15. -/
theorem test_last_limb :
    (match step { State.reset with pending := [.write 32 0x3FC 0x80000000] } with
      | .next t => some (t.getF 15).toNat
      | _ => none) = some (2 ^ 255) := by decide +kernel
theorem test_refuses_byte_access :
    step { State.reset with pending := [.read 8 0x200] } = .refused (.notWordAccess 8) := by rfl
theorem test_refuses_misaligned :
    step { State.reset with pending := [.write 32 0x202 0] } = .refused (.misalignedAccess 0x202) := by rfl
theorem test_refuses_outside :
    step { State.reset with pending := [.read 32 0x400] } = .refused (.outsideWindow 0x400) := by rfl

/-! ### Witnesses: for each statement with hypotheses, operands and states that meet them -/

theorem ex23_valid_p : (ex23 []).ctxP.Valid := by
  refine ⟨?_, ?_, ?_, ?_⟩ <;> decide +kernel
theorem ex23_valid_n : (ex23 []).ctxN.Valid := by
  refine ⟨?_, ?_, ?_, ?_⟩ <;> decide +kernel

/-- The Montgomery factor of EX-F23. -/
theorem radix_mod_23 : (2 ^ 256 : ZMod 23) = 8 := by decide +kernel
theorem stdVal_23 (v : Elem) : stdVal 23 v = v.toNat * 3 := by
  have h : ((8 : ZMod 23))⁻¹ = 3 := by decide +kernel
  rw [stdVal, radix_mod_23, h]
theorem ex23_curve_valid : Nat.Prime 23 ∧ CurveValid (ex23 []).ctxP (ex23 []).ctxA 23 1 4 := by
  refine ⟨by norm_num, ex23_valid_p, by decide, by unfold Canonical; decide, ?_, by decide⟩
  rw [stdVal_23]; decide +kernel

/-- The generator `G = (1, 11)` and the point `-G = (1, 12)` of EX-F23. -/
theorem g_nonsingular : (shortCurve 23 1 4).Nonsingular 1 11 := by
  rw [WeierstrassCurve.Affine.nonsingular_iff, WeierstrassCurve.Affine.equation_iff]
  simp only [shortCurve]
  decide +kernel
def pointG : (shortCurve 23 1 4).Point := .some 1 11 g_nonsingular
theorem twoG_nonsingular : (shortCurve 23 1 4).Nonsingular 14 18 := by
  rw [WeierstrassCurve.Affine.nonsingular_iff, WeierstrassCurve.Affine.equation_iff]
  simp only [shortCurve]
  decide +kernel
def point2G : (shortCurve 23 1 4).Point := .some 14 18 twoG_nonsingular

theorem rep_g : RepTriple 23 ((ex23 [8, 19, 8, 20, 17, 15]).getTriple 0) pointG := by
  refine ⟨by decide, by decide, ?_, ?_⟩ <;> simp only [stdVal_23] <;> decide +kernel
theorem rep_2g : RepTriple 23 ((ex23 [8, 19, 8, 20, 17, 15]).getTriple 3) point2G := by
  refine ⟨by decide, by decide, ?_, ?_⟩ <;> simp only [stdVal_23] <;> decide +kernel
theorem rep_pair_g : RepPair 23 ((ex23 [5, 8, 19]).getPair 1) pointG := by
  refine ⟨by decide, ?_, ?_⟩ <;> simp only [stdVal_23] <;> decide +kernel

/-- The curve hypotheses of PdblRepresentsDouble, PaddRepresentsSum, PaddCommutesAfterToaffine and
ToaffineGivesAffinePoint, at the largest register bases those allow. -/
theorem witness_curve_points :
    Nat.Prime 23 ∧ (ex23 [8, 19, 8, 20, 17, 15]).locked = true ∧
      CurveValid (ex23 [8, 19, 8, 20, 17, 15]).ctxP (ex23 [8, 19, 8, 20, 17, 15]).ctxA 23 1 4 ∧
      RepTriple 23 ((ex23 [8, 19, 8, 20, 17, 15]).getTriple 0) pointG ∧
      RepTriple 23 ((ex23 [8, 19, 8, 20, 17, 15]).getTriple 3) point2G ∧
      (13 : Reg).val ≤ 13 ∧ (14 : Reg).val ≤ 14 :=
  ⟨ex23_curve_valid.1, rfl, ex23_curve_valid.2, rep_g, rep_2g, by decide, by decide⟩
/-- The further hypotheses of PaddRepresentsSum's last clause, and of PdblRepresentsDouble's. -/
theorem witness_PaddRepresentsSum : pointG ≠ 0 ∧ point2G ≠ 0 ∧ pointG ≠ point2G := by
  refine ⟨WeierstrassCurve.Affine.Point.some_ne_zero _, WeierstrassCurve.Affine.Point.some_ne_zero _, ?_⟩
  intro h
  injection h with hx hy
  exact absurd hx (by decide +kernel)
theorem witness_ScalarmulComputesMultiple :
    Nat.Prime 23 ∧ (ex23 [5, 8, 19]).locked = true ∧
      CurveValid (ex23 [5, 8, 19]).ctxP (ex23 [5, 8, 19]).ctxA 23 1 4 ∧
      RepPair 23 ((ex23 [5, 8, 19]).getPair 1) pointG ∧ (14 : Reg).val ≤ 14 :=
  ⟨ex23_curve_valid.1, rfl, ex23_curve_valid.2, rep_pair_g, by decide⟩
theorem witness_ScalarmulCornerCases :
    (ex23 [1, 8, 19]).locked = true ∧ (ex23 [1, 8, 19]).ctxP.Valid ∧
      Canonical (ex23 [1, 8, 19]).ctxP ((ex23 [1, 8, 19]).getF 1) ∧
      Canonical (ex23 [1, 8, 19]).ctxP ((ex23 [1, 8, 19]).getF 2) ∧ (ex23 [1, 8, 19]).getF 0 = 1 ∧
      (ex23 [0, 8, 19]).getF 0 = 0 ∧ ((ex23 [5]).getF 1 = 0 ∧ (ex23 [5]).getF 2 = 0) :=
  ⟨rfl, ex23_valid_p, by unfold Canonical; decide, by unfold Canonical; decide, by decide, by decide, by decide⟩

theorem witness_DecodeOfEncode : (Instr.scalarmul 14 15 14).wf = true ∧ (Instr.cmov 15 15 .lt).wf = true := by decide
theorem witness_EncodeOfDecode : decode 0x13EFE000 = .ok (.scalarmul 14 15 14) := by decide
theorem witness_StepRunsDecodedCommand :
    (State.reset.withFetchWord 32 0x01301234).pending = .write 32 0x000 0x01301234 :: [] ∧
      decode 0x01301234 = .ok (.setsmall 3 0x1234) := by decide
theorem witness_IllegalWordOnlySetsErr : ¬ ∃ r ∈ tableRows 0x10E00000, r.Legal 0x10E00000 := by
  unfold TableRow.Legal
  decide
/-- Each clause: an illegal word; a context command at either end of the opcode range, unlocked; commands just outside
the range; a context command, locked. -/
theorem witness_DecodingOrder :
    (∀ i, decode 0x07000000 ≠ .ok i) ∧
      (decode 0x08100000 = .ok (.frombytes 1 .p) ∧ decode 0x13401000 = .ok (.scalarmul 4 0 1) ∧
        State.reset.locked = false) ∧
      (decode 0x06012000 = .ok (.eq 1 2) ∧ ((0x06012000 : Word32).extractLsb' 24 8).toNat < 0x08 ∧
        decode 0x1E000000 = .ok .lock ∧ 0x13 < ((0x1E000000 : Word32).extractLsb' 24 8).toNat ∧
        (ex23 []).locked = true) := by
  refine ⟨fun i h => ?_, by decide, by decide⟩
  rw [test_illegal_opcodes.1] at h
  cases h
/-- Both ends of a failure: only `ERR` changed, and FINV of zero. -/
theorem witness_FailureLeavesState :
    exec (.finv 2 1 .p) State.reset = .next { State.reset with err := .notConfigured } ∧
      (∃ t, exec (.finv 2 1 .p) (ex23 []) = .next t ∧ t.err = .curveOperationFailure) :=
  ⟨rfl, _, rfl, rfl⟩
theorem witness_CmovCopiesOnCondition : 10 ≤ (10#4).toNat ∧ 10 ≤ (15#4).toNat := by decide
theorem witness_ConditionTable :
    (1 : Reg) ≠ 2 ∧ ∃ t u, exec (.add 2 0 0) (ex23 [20, 23]) = .next t ∧ exec (.sub 3 2 1) t = .next u :=
  ⟨by decide, _, _, rfl, rfl⟩
theorem witness_AddSubCmovReproduceModadd :
    (4 : Reg) ≠ 2 ∧ (3 : Reg) ≠ 2 ∧ (ex23 [20, 9, 0, 0, 23]).getF 4 = ((ex23 [20, 9, 0, 0, 23]).bank .p).m := by decide
/-- The integer of the string 00..00 16 is 22, the last value accepted; that of 00..00 17 is 23, the first rejected. -/
theorem witness_FrombytesChecksAndConverts :
    (22#256).toNat = ∑ k : Fin 32, ((withBytes (lastByte 22) (ex23 [])).dbuf[k.val]).toNat * 256 ^ (31 - k.val) ∧
      (22#256).toNat < ((ex23 []).bank .p).m.toNat ∧
      (23#256).toNat = ∑ k : Fin 32, ((withBytes (lastByte 23) (ex23 [])).dbuf[k.val]).toNat * 256 ^ (31 - k.val) ∧
      ((ex23 []).bank .p).m.toNat ≤ (23#256).toNat ∧ (ex23 []).locked = true ∧ (ex23Unlocked []).locked = false := by
  decide +kernel
/-- The two phases, for TobytesWritesBuffer, TobytesSeenByteSwapped and the phase clauses of every context command. -/
theorem witness_phases : (ex23 [0, 17]).locked = true ∧ (ex23Unlocked [0, 17]).locked = false := by decide
theorem witness_MontmulWritesProduct :
    (ex23 [0, 22]).locked = true ∧ (ex23 [0, 22]).getF 0 = 0 ∧ ((ex23 [0, 22]).bank .p).Valid ∧
      Canonical ((ex23 [0, 22]).bank .p) ((ex23 [0, 22]).getF 1) :=
  ⟨rfl, by decide, ex23_valid_p, by unfold Canonical; decide⟩
/-- Canonical operands, and an operand far above the modulus that is still in contract. -/
theorem witness_MontmulInContract :
    ((ex23 [22, BitVec.allOnes 256]).bank .p).Valid ∧
      ((ex23 [22, BitVec.allOnes 256]).getF 0).toNat * ((ex23 [22, BitVec.allOnes 256]).getF 1).toNat <
        ((ex23 [22, BitVec.allOnes 256]).bank .p).m.toNat * 2 ^ 256 :=
  ⟨ex23_valid_p, by decide +kernel⟩
/-- Valid banks, for TomontWritesMontgomeryForm and FrommontWritesStandardForm; a canonical source, and registers that hold
`[5]` and `[14]` (their product is 1 modulo 23), and 14 itself, for DomainConversionsAndAlgebra. -/
theorem witness_DomainConversionsAndAlgebra :
    (ex23 [17, 20, 14]).locked = true ∧ ((ex23 [17, 20, 14]).bank .p).Valid ∧
      Canonical ((ex23 [17, 20, 14]).bank .p) ((ex23 [17, 20, 14]).getF 0) ∧
      5 < ((ex23 [17, 20, 14]).bank .p).m.toNat ∧ 14 < ((ex23 [17, 20, 14]).bank .p).m.toNat ∧
      (ex23 [17, 20, 14]).getF 0 = montForm ((ex23 [17, 20, 14]).bank .p) 5 ∧
      (ex23 [17, 20, 14]).getF 1 = montForm ((ex23 [17, 20, 14]).bank .p) 14 ∧
      ((ex23 [17, 20, 14]).getF 2).toNat = 14 ∧ ((ex23 [17, 20, 14]).bank .p).m.toNat.Prime ∧
      5 * 14 % ((ex23 [17, 20, 14]).bank .p).m.toNat = 1 :=
  ⟨rfl, ex23_valid_p, by unfold Canonical; decide, by decide, by decide, by decide +kernel, by decide +kernel,
    by decide, show Nat.Prime 23 by norm_num, by decide⟩
theorem witness_ImportExportRoundTrip :
    (withBytes (lastByte 22) (ex23 [])).locked = true ∧ ((withBytes (lastByte 22) (ex23 [])).bank .p).Valid ∧
      (be32 (withBytes (lastByte 22) (ex23 [])).dbuf).toNat < ((withBytes (lastByte 22) (ex23 [])).bank .p).m.toNat :=
  ⟨rfl, ex23_valid_p, by decide +kernel⟩
/-- Canonical operands at the end of their range, for ModaddWritesModularSum and ModsubWritesModularDifference. -/
theorem witness_ModaddWritesModularSum :
    (ex23 [22, 22]).locked = true ∧ Canonical ((ex23 [22, 22]).bank .p) ((ex23 [22, 22]).getF 0) ∧
      Canonical ((ex23 [22, 22]).bank .p) ((ex23 [22, 22]).getF 1) := by
  unfold Canonical
  decide
theorem witness_FinvWritesAndReportsZero :
    (ex23 [0, 1]).locked = true ∧ (ex23 [0, 1]).getF 1 ≠ 0 ∧ (ex23 [0, 1]).getF 0 = 0 ∧
      ((ex23 [0, 1]).bank .p).m ≠ 2 := by decide
theorem witness_FinvInvertsInContract :
    (ex23 [0, 22]).locked = true ∧ ((ex23 [0, 22]).bank .p).Valid ∧ ((ex23 [0, 22]).bank .p).m.toNat.Prime ∧
      Canonical ((ex23 [0, 22]).bank .p) ((ex23 [0, 22]).getF 1) ∧ (ex23 [0, 22]).getF 1 ≠ 0 ∧ (2 : Reg) ≠ 1 :=
  ⟨rfl, ex23_valid_p, show Nat.Prime 23 by norm_num, by unfold Canonical; decide, by decide, by decide⟩
theorem witness_PseudoInstructionsExpand :
    (ex23 [0, 22]).locked = true ∧ (2 : Reg) ≠ 1 ∧ Canonical ((ex23 [0, 22]).bank .p) ((ex23 [0, 22]).getF 1) := by
  unfold Canonical
  decide
/-- The bases at both sides of the bounds of R100, for PdblWritesDouble, PaddWritesSum, ToaffineWritesPair and
ScalarmulWritesPair. -/
theorem witness_group_bounds :
    (13 : Reg).val ≤ 13 ∧ 13 < (14 : Reg).val ∧ (14 : Reg).val ≤ 14 ∧ 14 < (15 : Reg).val := by decide
theorem witness_PaddInfinityIsIdentity :
    (ex23 [8, 19, 8, 5, 7, 0]).locked = true ∧ (ex23 [8, 19, 8, 5, 7, 0]).getF (3 + 2) = 0 ∧
      (ex23 [8, 19, 8, 5, 7, 0]).getF (0 + 2) ≠ 0 := by decide
theorem witness_NopOnlyClearsErr : (0x00000001 : Word32).extractLsb' 24 8 = 0 ∧ (0x00000001 : Word32) ≠ 0 := by decide
/-- First and last offsets of each kind, for HostReadFollowsMap, HostWriteFollowsMap and OnlyPortAccessesAccepted. -/
theorem witness_port_offsets :
    (0x3FC % 4 = 0 ∧ 0x3FC ≤ 0x3FC) ∧ (ReservedOffset 0x00C ∧ ReservedOffset 0x03C ∧ ReservedOffset 0x060 ∧
      ReservedOffset 0x0FC ∧ ReservedOffset 0x144 ∧ ReservedOffset 0x15C ∧ ReservedOffset 0x1C4 ∧
      ReservedOffset 0x1FC) ∧ (0x402 % 4 ≠ 0 ∧ 0x3FC < 0x400 ∧ 8 ≠ 32) := by
  unfold ReservedOffset
  refine ⟨by decide, ?_, by decide⟩
  refine ⟨?_, ?_, ?_, ?_, ?_, ?_, ?_, ?_⟩ <;> decide
/-- Stored offsets in both phases and an offset that is not stored, for PortReadAfterWrite. -/
theorem witness_PortReadAfterWrite :
    StoredOffset (ex23 []) 0x05C ∧ StoredOffset (ex23 []) 0x200 ∧ StoredOffset (ex23Unlocked []) 0x1C0 ∧
      ¬ StoredOffset (ex23 []) 0x100 ∧ ¬ StoredOffset (ex23Unlocked []) 0x15C := by
  unfold StoredOffset ContextOffset ReservedOffset
  refine ⟨?_, ?_, ?_, ?_, ?_⟩ <;> decide
/-- The first and the last context offset, a command that runs, and an engine already locked. -/
theorem witness_LockFreezesContexts :
    (0x100 % 4 = 0 ∧ ContextOffset 0x100) ∧ (0x1C0 % 4 = 0 ∧ ContextOffset 0x1C0) ∧
      (∃ u, runCommand 0x08100000 (ex23 []) = .next u) ∧ (ex23 []).locked = true := by
  unfold ContextOffset ReservedOffset
  refine ⟨by decide, by decide, ⟨_, rfl⟩, rfl⟩
theorem witness_ResetActionResetsEngine :
    ({ ex23 [1] with pending := [.reset, cmdWrite 0] } : State).pending = .reset :: [cmdWrite 0] := rfl
theorem witness_StepKeepsErrProduced :
    (ex23 []).ErrProduced ∧ step { ex23 [] with pending := [cmdWrite 0] } = .next (ex23 []) :=
  ⟨by unfold State.ErrProduced; decide, rfl⟩
theorem witness_LockedConfigurationImmutable :
    (ex23 []).locked = true ∧ ({ ex23 [] with pending := [cmdWrite 0] } : State).pending.head? ≠ some .reset ∧
      step { ex23 [] with pending := [cmdWrite 0] } = .next (ex23 []) := ⟨rfl, by decide, rfl⟩
/-- A command that writes a register and a flag, for CommandFrame and FlagsWrittenOnlyByNamed. -/
theorem witness_CommandFrame :
    ∃ t, exec (.sub 2 0 1) (ex23 [5, 7]) = .next t ∧ (3 : Reg) ∉ destRegs (.sub 2 0 1) ∧ t.bw ≠ (ex23 [5, 7]).bw :=
  ⟨_, rfl, by decide, by decide⟩
theorem witness_AcceptedRunCompletes :
    ∀ a ∈ [.write 32 0x3FC 7, .read 32 0x3FC, .reset, cmdWrite 0xFFFFFFFF], HostAction.Accepted a := by
  simp [HostAction.Accepted, cmdWrite]

end Sys2Proof.Tests
end

/-! # Proofs of the family of the architectural state (spec/10_state.md)

The plan: `CommandResult` says once what a command can leave behind, and `commandResult_of_exec` that `exec` leaves
nothing else. The frame of a command is then the frame of `effect`, field by field. The host's actions are inverted in
the same way, one lemma per function of the port, up to `step`. -/

namespace Sys2Proof.Machine

open Sys2Proof Sys2Proof.Spec

/-! ### What a command can leave behind -/

/-- What a command that completes writes, before `ERR <- 0` (step 3 of R101). -/
def effect (i : Instr) (s : State) : State :=
  match i with
  | .nop => s
  | .setsmall rd imm16 => s.setF rd (immValue imm16)
  | .add rd ra rb => { s.setF rd (s.getF ra + s.getF rb) with cy := carryOut (s.getF ra) (s.getF rb) }
  | .sub rd ra rb => { s.setF rd (s.getF ra - s.getF rb) with bw := borrowOut (s.getF ra) (s.getF rb) }
  | .cmov rd ra cond => s.setF rd (if condHolds cond s then s.getF ra else s.getF rd)
  | .iszero ra => { s with tf := isZeroElem (s.getF ra) }
  | .eq ra rb => { s with tf := equalElems (s.getF ra) (s.getF rb) }
  | .frombytes rd ctx => s.setF rd (montmul (be32 s.dbuf) (s.bank ctx).r2 (s.bank ctx))
  | .tobytes ra ctx => { s with dbuf := toBe32 (montmul (s.getF ra) 1 (s.bank ctx)) }
  | .montmul rd ra rb ctx => s.setF rd (montmul (s.getF ra) (s.getF rb) (s.bank ctx))
  | .tomont rd ra ctx => s.setF rd (montmul (s.getF ra) (s.bank ctx).r2 (s.bank ctx))
  | .frommont rd ra ctx => s.setF rd (montmul (s.getF ra) 1 (s.bank ctx))
  | .modadd rd ra rb ctx => s.setF rd (fadd (s.getF ra) (s.getF rb) (s.bank ctx))
  | .modsub rd ra rb ctx => s.setF rd (fsub (s.getF ra) (s.getF rb) (s.bank ctx))
  | .finv rd ra ctx => s.setF rd (finv (s.getF ra) (s.bank ctx))
  | .pdbl rd ra =>
    { s.setTriple rd (pdbl s.ctxP s.ctxA (s.getTriple ra)) with
      inf := isZeroElem (pdbl s.ctxP s.ctxA (s.getTriple ra)).z }
  | .padd rd ra rb =>
    { s.setTriple rd (padd s.ctxP s.ctxA (s.getTriple ra) (s.getTriple rb)) with
      inf := isZeroElem (padd s.ctxP s.ctxA (s.getTriple ra) (s.getTriple rb)).z }
  | .toaffine rd ra =>
    { s.setPair rd (toaff s.ctxP (s.getTriple ra)).1 with inf := (toaff s.ctxP (s.getTriple ra)).2 }
  | .scalarmul rd ra rb =>
    { s.setPair rd (smul s.ctxP s.ctxA (s.getF ra) (s.getPair rb)).1 with
      inf := (smul s.ctxP s.ctxA (s.getF ra) (s.getPair rb)).2 }
  | .lock => { s with locked := true }
  | .zeroize =>
    { s with
      f := Vector.replicate 16 0
      cy := false
      bw := false
      tf := false
      inf := false
      dbuf := Vector.replicate 32 0 }

/-- The states a command can end in: it completes (R102), or it fails and changes `ERR` only (R210), or it is FINV of
zero, which fails and writes 0 to its destination (R214). -/
inductive CommandResult (i : Instr) (s : State) : State → Prop where
  | completed : CommandResult i s { effect i s with err := .ok }
  | failed (k : ErrCode) (hk : k ≠ .ok) : CommandResult i s { s with err := k }
  | noInverse (rd ra : Reg) (ctx : Ctx) (hi : i = .finv rd ra ctx) :
      CommandResult i s { s.setF rd 0 with err := .curveOperationFailure }

section

variable {i : Instr} {s t : State}

theorem CommandResult.of_complete (h : complete (effect i s) = .next t) : CommandResult i s t := by
  obtain rfl := Host.Outcome.next.inj h
  exact .completed

theorem CommandResult.of_whenLocked {run : Host.Outcome State Fault Refusal}
    (hrun : run = .next t → CommandResult i s t) (h : whenLocked s run = .next t) : CommandResult i s t := by
  obtain ⟨-, h⟩ | ⟨-, rfl⟩ := whenLocked_cases h
  · exact hrun h
  · exact .failed _ nofun

theorem CommandResult.of_whenInBounds {ok : Bool} {run : Host.Outcome State Fault Refusal}
    (hrun : run = .next t → CommandResult i s t) (h : whenInBounds ok s run = .next t) : CommandResult i s t := by
  obtain ⟨-, h⟩ | ⟨-, rfl⟩ := whenInBounds_cases h
  · exact hrun h
  · exact .failed _ nofun

/-- The inversion of `exec`, along its arms: the basic and system commands complete, the Montgomery commands are
admitted by `LOCKED`, the curve commands by their group bounds first. -/
theorem commandResult_of_exec (h : exec i s = .next t) : CommandResult i s t := by
  cases i with
  | nop | setsmall | add | sub | cmov | iszero | eq | lock | zeroize => exact .of_complete h
  | tobytes | montmul | tomont | frommont | modadd | modsub => exact .of_whenLocked .of_complete h
  | pdbl | padd | toaffine | scalarmul => exact .of_whenInBounds (.of_whenLocked .of_complete) h
  | frombytes rd ctx =>
    refine .of_whenLocked (fun hrun => ?_) h
    split at hrun
    · obtain rfl := Host.Outcome.next.inj hrun
      exact .failed _ nofun
    · exact .of_complete hrun
  | finv rd ra ctx =>
    refine .of_whenLocked (fun hrun => ?_) h
    split at hrun
    · obtain rfl := Host.Outcome.next.inj hrun
      exact .noInverse rd ra ctx rfl
    · exact .of_complete hrun

end

/-! ### Registers outside a written group (R25, R26) -/

section

variable {s : State}

theorem State.getF_setPair_other {r q : Reg} (p : Pair) (h : q ∉ [r, r + 1]) :
    (s.setPair r p).getF q = s.getF q := by
  simp only [List.mem_cons, List.not_mem_nil, or_false, not_or] at h
  obtain ⟨h0, h1⟩ := h
  simp only [State.getF_setPair, h0, h1, if_false]

theorem State.getF_setTriple_other {r q : Reg} (p : Triple) (h : q ∉ [r, r + 1, r + 2]) :
    (s.setTriple r p).getF q = s.getF q := by
  simp only [List.mem_cons, List.not_mem_nil, or_false, not_or] at h
  obtain ⟨h0, h1, h2⟩ := h
  simp only [State.getF_setTriple, h0, h1, h2, if_false]

end

/-! ### The frame of the effect, field by field -/

section

variable (i : Instr) (s : State)

@[simp] theorem effect_ctxP : (effect i s).ctxP = s.ctxP := by cases i <;> simp [effect]
@[simp] theorem effect_ctxA : (effect i s).ctxA = s.ctxA := by cases i <;> simp [effect]
@[simp] theorem effect_ctxN : (effect i s).ctxN = s.ctxN := by cases i <;> simp [effect]
@[simp] theorem effect_pending : (effect i s).pending = s.pending := by cases i <;> simp [effect]
@[simp] theorem effect_replies : (effect i s).replies = s.replies := by cases i <;> simp [effect]

end

section

variable {i : Instr} {s : State}

/-- Only LOCK writes `LOCKED` (R38). -/
theorem effect_locked_of_ne_lock (hi : i ≠ .lock) : (effect i s).locked = s.locked := by
  cases i with
  | lock => exact absurd rfl hi
  | _ => simp [effect]

/-- No command clears `LOCKED` (R38). -/
theorem effect_locked_of_locked (hs : s.locked = true) : (effect i s).locked = true := by
  by_cases hi : i = .lock
  · subst hi
    rfl
  · rw [effect_locked_of_ne_lock hi, hs]

/-- Only TOBYTES and ZEROIZE write `DBUF` (R42). -/
theorem effect_dbuf (hto : ∀ ra c, i ≠ .tobytes ra c) (hz : i ≠ .zeroize) : (effect i s).dbuf = s.dbuf := by
  cases i with
  | tobytes ra c => exact absurd rfl (hto ra c)
  | zeroize => exact absurd rfl hz
  | _ => simp [effect]

/-- A command other than ZEROIZE writes its destination registers only (R24, R103). -/
theorem effect_getF {r : Reg} (hz : i ≠ .zeroize) (hr : r ∉ destRegs i) : (effect i s).getF r = s.getF r := by
  cases i with
  | nop | iszero | eq | tobytes | lock => simp [effect, State.getF]
  | setsmall rd | add rd | sub rd | cmov rd | frombytes rd | montmul rd | tomont rd | frommont rd | modadd rd
  | modsub rd | finv rd => exact State.getF_setF_other s _ (List.ne_of_not_mem_cons hr)
  | pdbl rd | padd rd => exact State.getF_setTriple_other _ hr
  | toaffine rd | scalarmul rd => exact State.getF_setPair_other _ hr
  | zeroize => exact absurd rfl hz

/-- The commands that write `CY` (R31). -/
theorem writer_of_effect_cy_ne (h : (effect i s).cy ≠ s.cy) : (∃ rd ra rb, i = .add rd ra rb) ∨ i = .zeroize := by
  cases i with
  | add rd ra rb => exact .inl ⟨rd, ra, rb, rfl⟩
  | zeroize => exact .inr rfl
  | _ => simp [effect] at h

/-- The commands that write `BW` (R32). -/
theorem writer_of_effect_bw_ne (h : (effect i s).bw ≠ s.bw) : (∃ rd ra rb, i = .sub rd ra rb) ∨ i = .zeroize := by
  cases i with
  | sub rd ra rb => exact .inl ⟨rd, ra, rb, rfl⟩
  | zeroize => exact .inr rfl
  | _ => simp [effect] at h

/-- The commands that write `T` (R33). -/
theorem writer_of_effect_tf_ne (h : (effect i s).tf ≠ s.tf) :
    (∃ ra, i = .iszero ra) ∨ (∃ ra rb, i = .eq ra rb) ∨ i = .zeroize := by
  cases i with
  | iszero ra => exact .inl ⟨ra, rfl⟩
  | eq ra rb => exact .inr (.inl ⟨ra, rb, rfl⟩)
  | zeroize => exact .inr (.inr rfl)
  | _ => simp [effect] at h

/-- The commands that write `INF` (R34). -/
theorem writer_of_effect_inf_ne (h : (effect i s).inf ≠ s.inf) :
    (∃ rd ra, i = .pdbl rd ra) ∨ (∃ rd ra rb, i = .padd rd ra rb) ∨ (∃ rd ra, i = .toaffine rd ra) ∨
      (∃ rd ra rb, i = .scalarmul rd ra rb) ∨ i = .zeroize := by
  cases i with
  | pdbl rd ra => exact .inl ⟨rd, ra, rfl⟩
  | padd rd ra rb => exact .inr (.inl ⟨rd, ra, rb, rfl⟩)
  | toaffine rd ra => exact .inr (.inr (.inl ⟨rd, ra, rfl⟩))
  | scalarmul rd ra rb => exact .inr (.inr (.inr (.inl ⟨rd, ra, rb, rfl⟩)))
  | zeroize => exact .inr (.inr (.inr (.inr rfl)))
  | _ => simp [effect] at h

end

/-! ### What a host action can do -/

section

variable {s t : State}

theorem runCommand_of_decode_ok {w : Word32} {i : Instr} (h : decode w = .ok i) (s : State) :
    runCommand w s = exec i s := by
  simp only [runCommand, h]

/-- All that `runCommand` can do. -/
theorem runCommand_cases {w : Word32} (h : runCommand w s = .next t) :
    (∃ i, decode w = .ok i ∧ exec i s = .next t) ∨ t = { s with err := .illegalCommand } := by
  unfold runCommand at h
  split at h
  · exact .inl ⟨_, ‹_›, h⟩
  · exact .inr (Host.Outcome.next.inj h).symm

theorem hostWrite_cmd (w : Word32) (s : State) : hostWrite 0x000 w s = runCommand w s := rfl

/-- All that `hostWrite` can do. -/
theorem hostWrite_cases {off : Nat} {v : Word32} (h : hostWrite off v s = .next t) :
    runCommand v s = .next t ∨ t = writeReg (portReg off) v s := by
  unfold hostWrite at h
  split at h
  · exact .inl h
  · exact .inr (Host.Outcome.next.inj h).symm

theorem step_of_pending_nil (h : s.pending = []) : step s = .next s := by
  simp only [step, h]

theorem step_of_pending_cons {a : HostAction} {rest : List HostAction} (h : s.pending = a :: rest) :
    step s = hostAction a { s with pending := rest } := by
  simp only [step, h]

end

/-! ### The locked configuration (R38, R41) -/

section

variable {s t u : State}

theorem State.SameConfig.refl (s : State) : s.SameConfig s := ⟨rfl, rfl, rfl, rfl⟩

theorem State.SameConfig.trans (hst : s.SameConfig t) (htu : t.SameConfig u) : s.SameConfig u := by
  obtain ⟨hl, hp, ha, hn⟩ := hst
  obtain ⟨hl', hp', ha', hn'⟩ := htu
  exact ⟨hl.trans hl', hp.trans hp', ha.trans ha', hn.trans hn'⟩

theorem whileUnlocked_of_locked (hs : s.locked = true) (t : State) : whileUnlocked s t = s := if_pos hs

theorem exec_sameConfig {i : Instr} (hs : s.locked = true) (h : exec i s = .next t) : t.SameConfig s := by
  cases commandResult_of_exec h with
  | completed => exact ⟨(effect_locked_of_locked hs).trans hs.symm, effect_ctxP i s, effect_ctxA i s, effect_ctxN i s⟩
  | failed | noInverse => exact ⟨rfl, rfl, rfl, rfl⟩

theorem runCommand_sameConfig {w : Word32} (hs : s.locked = true) (h : runCommand w s = .next t) :
    t.SameConfig s := by
  obtain ⟨i, -, h⟩ | rfl := runCommand_cases h
  · exact exec_sameConfig hs h
  · exact ⟨rfl, rfl, rfl, rfl⟩

/-- A locked engine ignores a host write to a context field (R41), and no other window register holds a part of the
configuration. -/
theorem writeReg_sameConfig (r : PortReg) (v : Word32) (hs : s.locked = true) : (writeReg r v s).SameConfig s := by
  cases r with
  | ctxM | ctxR2 | ctxM0inv | ctxA =>
    simp only [writeReg, whileUnlocked_of_locked hs]
    exact State.SameConfig.refl s
  | cmd | status | flags | dbuf | freg | reserved => exact ⟨rfl, rfl, rfl, rfl⟩

theorem hostWrite_sameConfig {off : Nat} {v : Word32} (hs : s.locked = true) (h : hostWrite off v s = .next t) :
    t.SameConfig s := by
  obtain h | rfl := hostWrite_cases h
  · exact runCommand_sameConfig hs h
  · exact writeReg_sameConfig _ v hs

/-- Of the host's actions only `Reset` changes the configuration of a locked engine. -/
theorem hostAction_sameConfig {a : HostAction} (hs : s.locked = true) (ha : a ≠ .reset)
    (h : hostAction a s = .next t) : t.SameConfig s := by
  cases a with
  | read bits off =>
    obtain ⟨-, -, -, hrun⟩ := whenAccepted_next h
    obtain rfl := Host.Outcome.next.inj hrun
    exact ⟨rfl, rfl, rfl, rfl⟩
  | write bits off v =>
    obtain ⟨-, -, -, hrun⟩ := whenAccepted_next h
    exact hostWrite_sameConfig hs hrun
  | reset => exact absurd rfl ha

end

/-- Settles O57: an idle step changes nothing, and any other performs one host action, which is not `Reset`, on the
state without that access, which has the same configuration. -/
theorem lockedConfigurationImmutable : Obligations.LockedConfigurationImmutable := by
  intro s t hs hreset h
  cases hp : s.pending with
  | nil =>
    rw [step_of_pending_nil hp] at h
    obtain rfl := Host.Outcome.next.inj h
    exact State.SameConfig.refl s
  | cons a rest =>
    rw [step_of_pending_cons hp] at h
    have ha : a ≠ .reset := by
      rintro rfl
      simp [hp] at hreset
    have hpop : State.SameConfig { s with pending := rest } s := ⟨rfl, rfl, rfl, rfl⟩
    exact (hostAction_sameConfig (s := { s with pending := rest }) hs ha h).trans hpop

/-- Settles O58: a command that completes writes the flags its effect writes and leaves `ERR` 0; one that fails leaves
every flag. -/
theorem flagsWrittenOnlyByNamed : Obligations.FlagsWrittenOnlyByNamed := by
  intro i s t h
  cases commandResult_of_exec h with
  | completed =>
    exact ⟨writer_of_effect_cy_ne, writer_of_effect_bw_ne, writer_of_effect_tf_ne, writer_of_effect_inf_ne,
      fun herr => absurd rfl herr⟩
  | failed | noInverse =>
    exact ⟨absurd rfl, absurd rfl, absurd rfl, absurd rfl, fun _ => ⟨rfl, rfl, rfl, rfl⟩⟩

/-- Settles O59: the frame of a command that completes is the frame of its effect; a failure changes `ERR` only, and
FINV of zero its destination besides. -/
theorem commandFrame : Obligations.CommandFrame := by
  intro i s t h
  cases commandResult_of_exec h with
  | completed =>
    exact ⟨fun hz _ hr => effect_getF hz hr, effect_dbuf, effect_ctxP i s, effect_ctxA i s, effect_ctxN i s,
      effect_locked_of_ne_lock, effect_pending i s, effect_replies i s⟩
  | failed =>
    exact ⟨fun _ _ _ => rfl, fun _ _ => rfl, rfl, rfl, rfl, fun _ => rfl, rfl, rfl⟩
  | noInverse rd ra ctx hi =>
    subst hi
    exact ⟨fun _ _ hr => State.getF_setF_other s _ (List.ne_of_not_mem_cons hr), fun _ _ => rfl, rfl, rfl, rfl,
      fun _ => rfl, rfl, rfl⟩

/-- Settles O5: the port accepts a 32-bit write at offset 0, and the write to `CMD` runs the word's command. -/
theorem stepRunsDecodedCommand : Obligations.StepRunsDecodedCommand := by
  intro s w i rest hp hw
  calc step s
      = whenAccepted 32 0x000 (hostWrite 0x000 w { s with pending := rest }) := step_of_pending_cons hp
    _ = runCommand w { s with pending := rest } := by
        rw [whenAccepted_accepted rfl rfl (by decide), hostWrite_cmd]
    _ = exec i { s with pending := rest } := runCommand_of_decode_ok hw _

/-! ### The reset state (R50) -/

theorem State.reset_getF (r : Reg) : State.reset.getF r = 0 := Vector.getElem_replicate r.isLt

theorem State.reset_dbuf (k : Fin 32) : State.reset.dbuf[k.val] = 0 := Vector.getElem_replicate k.isLt

theorem State.reset_bank (c : Ctx) : State.reset.bank c = Bank.zero := by cases c <;> rfl

/-- Settles O53: the vectors hold 0 at every index, and both banks are the zero bank. -/
theorem resetStateIsZero : Obligations.ResetStateIsZero := by
  refine ⟨State.reset_getF, rfl, rfl, rfl, rfl, rfl, rfl, State.reset_dbuf, fun c => ?_, rfl⟩
  rw [State.reset_bank]
  exact ⟨rfl, rfl, rfl⟩

/-- Settles O56: the reset state's code is 0. -/
theorem resetErrProduced : Obligations.ResetErrProduced := by
  unfold Obligations.ResetErrProduced State.ErrProduced
  rw [State.reset_err]
  exact ⟨nofun, nofun⟩

end Sys2Proof.Machine

/-! # Proofs of the family of the host port (spec/20_memory.md)

The plan: `PortReg.IsAt` says where each register of the window stands, and `portReg_of_isAt` and `portReg_isAt` that
the model's address map is that table. An access at an offset is then a read or a write of one register, and the rules
about registers (`readReg_writeReg_same`, `readReg_writeReg_other`, `writeReg_of_not_stores`) do not mention offsets. -/

namespace Sys2Proof.Machine

open Sys2Proof Sys2Proof.Spec

/-! ### The address map (R64) -/

@[simp] theorem Ctx.bit_p_toNat : (Ctx.bit .p).toNat = 0 := rfl
@[simp] theorem Ctx.bit_n_toNat : (Ctx.bit .n).toNat = 1 := rfl

/-- The table of R64: the register `r` stands at the byte offset `off`. -/
def PortReg.IsAt (r : PortReg) (off : Nat) : Prop :=
  match r with
  | .cmd => off = 0x000
  | .status => off = 0x004
  | .flags => off = 0x008
  | .dbuf w => off = 0x040 + 4 * w.val
  | .ctxM c j => off = 0x100 + 0x80 * c.bit.toNat + 4 * j.val
  | .ctxR2 c j => off = 0x120 + 0x80 * c.bit.toNat + 4 * j.val
  | .ctxM0inv c => off = 0x140 + 0x80 * c.bit.toNat
  | .ctxA j => off = 0x160 + 4 * j.val
  | .freg i j => off = 0x200 + 0x20 * i.val + 4 * j.val
  | .reserved => ReservedOffset off

section

variable {r : PortReg} {off off' : Nat}

/-- The model's address map gives a register's offset that register. -/
theorem portReg_of_isAt (h : r.IsAt off) : portReg off = r := by
  cases r with
  | cmd | status | flags => subst h; rfl
  | dbuf w => subst h; revert w; decide
  | ctxM c j | ctxR2 c j => subst h; revert j; cases c <;> decide
  | ctxM0inv c => subst h; cases c <;> rfl
  | ctxA j => subst h; revert j; decide
  | freg i j => subst h; revert i j; decide
  | reserved =>
    simp only [PortReg.IsAt, ReservedOffset] at h
    unfold portReg
    simp (disch := omega) only [if_neg]

theorem exists_limb_of_range {base : Nat} (ha : off % 4 = 0) (hb : base % 4 = 0) (hlo : base ≤ off)
    (hhi : off ≤ base + 0x1C) : ∃ j : Fin 8, off = base + 4 * j.val :=
  ⟨⟨(off - base) / 4, by omega⟩, by simp only []; omega⟩

/-- The table covers the window: some register, or the reserved space, stands at every aligned offset. -/
theorem exists_isAt (ha : off % 4 = 0) (hw : off ≤ 0x3FC) : ∃ r : PortReg, r.IsAt off := by
  have hrows : off = 0x000 ∨ off = 0x004 ∨ off = 0x008 ∨ (0x040 ≤ off ∧ off ≤ 0x05C) ∨ (0x100 ≤ off ∧ off ≤ 0x11C) ∨
      (0x120 ≤ off ∧ off ≤ 0x13C) ∨ off = 0x140 ∨ (0x160 ≤ off ∧ off ≤ 0x17C) ∨ (0x180 ≤ off ∧ off ≤ 0x19C) ∨
      (0x1A0 ≤ off ∧ off ≤ 0x1BC) ∨ off = 0x1C0 ∨ 0x200 ≤ off ∨ ReservedOffset off := by
    unfold ReservedOffset
    omega
  obtain h | h | h | ⟨hlo, hhi⟩ | ⟨hlo, hhi⟩ | ⟨hlo, hhi⟩ | h | ⟨hlo, hhi⟩ | ⟨hlo, hhi⟩ | ⟨hlo, hhi⟩ | h | h | h :=
    hrows
  · exact ⟨.cmd, h⟩
  · exact ⟨.status, h⟩
  · exact ⟨.flags, h⟩
  · exact (exists_limb_of_range ha rfl hlo hhi).imp' .dbuf fun _ h => h
  · exact (exists_limb_of_range ha rfl hlo hhi).imp' (.ctxM .p) fun _ h => h
  · exact (exists_limb_of_range ha rfl hlo hhi).imp' (.ctxR2 .p) fun _ h => h
  · exact ⟨.ctxM0inv .p, h⟩
  · exact (exists_limb_of_range ha rfl hlo hhi).imp' .ctxA fun _ h => h
  · exact (exists_limb_of_range ha rfl hlo hhi).imp' (.ctxM .n) fun _ h => h
  · exact (exists_limb_of_range ha rfl hlo hhi).imp' (.ctxR2 .n) fun _ h => h
  · exact ⟨.ctxM0inv .n, h⟩
  · have hbase : (0x200 + 0x20 * ((off - 0x200) / 0x20)) % 4 = 0 := by omega
    obtain ⟨j, hj⟩ := exists_limb_of_range ha hbase (by omega) (by omega)
    exact ⟨.freg ⟨(off - 0x200) / 0x20, by omega⟩ j, hj⟩
  · exact ⟨.reserved, h⟩

theorem portReg_isAt (ha : off % 4 = 0) (hw : off ≤ 0x3FC) : (portReg off).IsAt off := by
  obtain ⟨r, hr⟩ := exists_isAt ha hw
  rwa [portReg_of_isAt hr]

/-- A register other than the reserved space stands at one offset. -/
theorem PortReg.IsAt.unique (h : r.IsAt off) (h' : r.IsAt off') (hr : r ≠ .reserved) : off = off' := by
  cases r with
  | reserved => exact absurd rfl hr
  | _ => exact h.trans h'.symm

end

/-! ### An access is an access to one register (R62, R63) -/

section

variable {r : PortReg} {off : Nat}

theorem hostRead_of_isAt (h : r.IsAt off) (s : State) : hostRead off s = readReg r s := by
  rw [hostRead, portReg_of_isAt h]

theorem hostWrite_of_portReg_ne_cmd (h : portReg off ≠ .cmd) (v : Word32) (s : State) :
    hostWrite off v s = .next (writeReg (portReg off) v s) := by
  unfold hostWrite
  split
  · exact absurd ‹_› h
  · rfl

theorem hostWrite_of_isAt (h : r.IsAt off) (hr : r ≠ .cmd) (v : Word32) (s : State) :
    hostWrite off v s = .next (writeReg r v s) := by
  rw [← portReg_of_isAt h] at hr ⊢
  exact hostWrite_of_portReg_ne_cmd hr v s

/-- No register holds a part of the host's list of accesses. -/
theorem hostRead_pending (off : Nat) (s : State) (l : List HostAction) :
    hostRead off { s with pending := l } = hostRead off s := by
  unfold hostRead
  cases portReg off with
  | ctxM c | ctxR2 c | ctxM0inv c => cases c <;> rfl
  | _ => rfl

end

/-! ### The packed words (R36, R62) -/

theorem statusWord_toNat (s : State) : (statusWord s).toNat = s.err.code.toNat * 16 + s.locked.toNat := by
  have h : ∀ (e : BitVec 4) (l : Bool),
      (0#24 ++ e ++ 0#3 ++ BitVec.ofBool l : Word32).toNat = e.toNat * 16 + l.toNat := by decide
  exact h _ _

theorem flagsWord_toNat (s : State) :
    (flagsWord s).toNat = s.cy.toNat + 2 * s.bw.toNat + 4 * s.tf.toNat + 8 * s.inf.toNat := by
  have h : ∀ cy bw tf inf : Bool,
      (0#28 ++ BitVec.ofBool inf ++ BitVec.ofBool tf ++ BitVec.ofBool bw ++ BitVec.ofBool cy : Word32).toNat =
        cy.toNat + 2 * bw.toNat + 4 * tf.toNat + 8 * inf.toNat := by decide
  exact h _ _ _ _

/-- Settles O48: the port accepts the read, and each row is the reading of the register that stands at its offset. -/
theorem hostReadFollowsMap : Obligations.HostReadFollowsMap := by
  refine ⟨fun s off rest ha hw hp => ?_, fun s => ⟨?_, ?_, ?_, ?_, fun w => ?_, fun c j => ?_, fun c j => ?_,
    fun c => ?_, fun j => ?_, fun i j => ?_, fun off _ hres => ?_⟩⟩
  · calc step s
        = whenAccepted 32 off (.next { s with
            pending := rest, replies := hostRead off { s with pending := rest } :: s.replies }) :=
          step_of_pending_cons hp
      _ = .next { s with pending := rest, replies := hostRead off { s with pending := rest } :: s.replies } :=
          whenAccepted_accepted rfl ha (by omega) _
      _ = .next { s with pending := rest, replies := hostRead off s :: s.replies } := by
          rw [hostRead_pending]
  · exact hostRead_of_isAt (r := .cmd) rfl s
  · exact statusWord_toNat s
  · exact ⟨rfl, rfl, rfl, rfl, rfl, rfl, rfl⟩
  · exact flagsWord_toNat s
  · rw [hostRead_of_isAt (r := .dbuf w) rfl]
    exact dbufWord_toNat s.dbuf w
  · exact hostRead_of_isAt (r := .ctxM c j) rfl s
  · exact hostRead_of_isAt (r := .ctxR2 c j) rfl s
  · exact hostRead_of_isAt (r := .ctxM0inv c) rfl s
  · exact hostRead_of_isAt (r := .ctxA j) rfl s
  · exact hostRead_of_isAt (r := .freg i j) rfl s
  · exact hostRead_of_isAt (r := .reserved) hres s

/-- Settles O49: the port accepts the write, and each row other than `CMD` is `writeReg` of the register at its
offset. -/
theorem hostWriteFollowsMap : Obligations.HostWriteFollowsMap := by
  refine ⟨fun s off v rest ha hw hp => ?_, fun s v => ⟨?_, ?_, ?_, fun w => ?_, fun c j => ?_, fun c j => ?_,
    fun c => ?_, fun j => ?_, fun i j => ?_, fun off _ hres => ?_⟩⟩
  · calc step s
        = whenAccepted 32 off (hostWrite off v { s with pending := rest }) := step_of_pending_cons hp
      _ = hostWrite off v { s with pending := rest } := whenAccepted_accepted rfl ha (by omega) _
  · exact hostWrite_cmd v s
  · exact hostWrite_of_isAt (r := .status) rfl nofun v s
  · exact hostWrite_of_isAt (r := .flags) rfl nofun v s
  · exact ⟨setDbufWord s.dbuf w v, hostWrite_of_isAt (r := .dbuf w) rfl nofun v s,
      fun k => setDbufWord_getElem s.dbuf w v k.val k.isLt⟩
  · exact ⟨_, setLimb_toNat (s.bank c).m j v, hostWrite_of_isAt (r := .ctxM c j) rfl nofun v s⟩
  · exact ⟨_, setLimb_toNat (s.bank c).r2 j v, hostWrite_of_isAt (r := .ctxR2 c j) rfl nofun v s⟩
  · exact hostWrite_of_isAt (r := .ctxM0inv c) rfl nofun v s
  · exact ⟨_, setLimb_toNat s.ctxA j v, hostWrite_of_isAt (r := .ctxA j) rfl nofun v s⟩
  · exact ⟨_, setLimb_toNat (s.getF i) j v, hostWrite_of_isAt (r := .freg i j) rfl nofun v s⟩
  · exact hostWrite_of_isAt (r := .reserved) hres nofun v s

/-! ### Reading a register after writing one (R63, R67) -/

/-- A write to the register `r` stores the word in the state `s` (R63): `DBUF`, a field register, or a context field
while unlocked. -/
def PortReg.Stores (r : PortReg) (s : State) : Prop :=
  match r with
  | .dbuf _ | .freg _ _ => True
  | .ctxM _ _ | .ctxR2 _ _ | .ctxM0inv _ | .ctxA _ => s.locked = false
  | .cmd | .status | .flags | .reserved => False

section

variable {s t : State} {r q : PortReg}

theorem whileUnlocked_of_unlocked (hs : s.locked = false) (t : State) : whileUnlocked s t = t := by
  simp [whileUnlocked, hs]

theorem readReg_whileUnlocked (h : readReg q t = readReg q s) : readReg q (whileUnlocked s t) = readReg q s := by
  unfold whileUnlocked
  split
  · rfl
  · exact h

/-- A register reads as before when a bank is replaced by one with the same word for it. -/
theorem readReg_setBank {c : Ctx} {b : Bank} (hm : ∀ k, q = .ctxM c k → limb b.m k = limb (s.bank c).m k)
    (hr2 : ∀ k, q = .ctxR2 c k → limb b.r2 k = limb (s.bank c).r2 k)
    (hm0inv : q = .ctxM0inv c → b.m0inv = (s.bank c).m0inv) : readReg q (s.setBank c b) = readReg q s := by
  cases q with
  | ctxM d k | ctxR2 d k | ctxM0inv d =>
    obtain rfl | hd := eq_or_ne d c
    · simp only [readReg, State.bank_setBank_same, hm, hr2, hm0inv]
    · simp only [readReg, State.bank_setBank_other s b hd]
  | _ => cases c <;> rfl

/-- A register reads as before when a field register is replaced by one with the same word for it. -/
theorem readReg_setF {i : Reg} {x : Elem} (hx : ∀ k, q = .freg i k → limb x k = limb (s.getF i) k) :
    readReg q (s.setF i x) = readReg q s := by
  cases q with
  | freg l k =>
    obtain rfl | hl := eq_or_ne l i
    · simpa only [readReg, State.getF_setF_same] using hx k rfl
    · simp only [readReg, State.getF_setF_other s x hl]
  | ctxM c | ctxR2 c | ctxM0inv c => simp only [readReg, State.bank_setF]
  | _ => rfl

/-- A stored word reads back. -/
theorem readReg_writeReg_same (hr : r.Stores s) (v : Word32) : readReg r (writeReg r v s) = v := by
  cases r with
  | dbuf w => exact dbufWord_setDbufWord_same s.dbuf w v
  | freg i j => simp only [writeReg, readReg, State.getF_setF_same, limb_setLimb_same]
  | ctxM | ctxR2 | ctxM0inv | ctxA =>
    simp only [writeReg, readReg, whileUnlocked_of_unlocked hr, State.bank_setBank_same, limb_setLimb_same]
  | cmd | status | flags | reserved => exact absurd hr id

/-- A write that is not stored changes nothing (R63). -/
theorem writeReg_of_not_stores (hr : ¬ r.Stores s) (v : Word32) : writeReg r v s = s := by
  cases r with
  | dbuf | freg => exact absurd trivial hr
  | ctxM | ctxR2 | ctxM0inv | ctxA => exact whileUnlocked_of_locked (Bool.of_not_eq_false hr) _
  | cmd | status | flags | reserved => rfl

/-- The window registers do not overlap (R67): a write changes what no other register reads. -/
theorem readReg_writeReg_other (h : q ≠ r) (v : Word32) : readReg q (writeReg r v s) = readReg q s := by
  cases r with
  | cmd | status | flags | reserved => rfl
  | dbuf w =>
    cases q with
    | dbuf u => exact dbufWord_setDbufWord_other s.dbuf v (fun hu => h (congrArg _ hu))
    | ctxM c | ctxR2 c | ctxM0inv c => cases c <;> rfl
    | _ => rfl
  | ctxM c j =>
    refine readReg_whileUnlocked (readReg_setBank (fun k hk => ?_) (fun _ _ => rfl) (fun _ => rfl))
    exact limb_setLimb_other _ v (fun hj => h (hj ▸ hk))
  | ctxR2 c j =>
    refine readReg_whileUnlocked (readReg_setBank (fun _ _ => rfl) (fun k hk => ?_) (fun _ => rfl))
    exact limb_setLimb_other _ v (fun hj => h (hj ▸ hk))
  | ctxM0inv c =>
    exact readReg_whileUnlocked (readReg_setBank (fun _ _ => rfl) (fun _ _ => rfl) (fun hq => absurd hq h))
  | ctxA j =>
    refine readReg_whileUnlocked ?_
    cases q with
    | ctxA k => exact limb_setLimb_other s.ctxA v (fun hk => h (congrArg _ hk))
    | ctxM c | ctxR2 c | ctxM0inv c => cases c <;> rfl
    | _ => rfl
  | freg i j =>
    exact readReg_setF (fun k hk => limb_setLimb_other _ v (fun hj => h (hj ▸ hk)))

end

/-! ### The stored offsets (R63) -/

section

variable {s : State} {r : PortReg} {off : Nat}

theorem storedOffset_iff_of_contextOffset (h : ContextOffset off) : StoredOffset s off ↔ s.locked = false := by
  have hc := h
  obtain ⟨hlo, hhi, -⟩ := hc
  constructor
  · rintro (hd | hf | ⟨-, hs⟩)
    · omega
    · omega
    · exact hs
  · exact fun hs => .inr (.inr ⟨h, hs⟩)

theorem not_storedOffset (h : off < 0x040 ∨ ReservedOffset off) : ¬ StoredOffset s off := by
  rintro (hd | hf | ⟨⟨hlo, hhi, hres⟩, -⟩)
  · unfold ReservedOffset at h
    omega
  · unfold ReservedOffset at h
    omega
  · obtain h | h := h
    · omega
    · exact hres h

/-- `StoredOffset` is `PortReg.Stores` at the register's offset. -/
theorem stores_iff_storedOffset (h : r.IsAt off) : r.Stores s ↔ StoredOffset s off := by
  cases r with
  | cmd | status | flags =>
    subst h
    exact iff_of_false id (not_storedOffset (.inl (by decide)))
  | reserved => exact iff_of_false id (not_storedOffset (.inr h))
  | dbuf w =>
    subst h
    exact iff_of_true trivial (.inl (by omega))
  | freg i j =>
    subst h
    exact iff_of_true trivial (.inr (.inl (by omega)))
  | ctxM c | ctxR2 c | ctxM0inv c =>
    refine (storedOffset_iff_of_contextOffset ?_).symm
    unfold PortReg.IsAt at h
    unfold ContextOffset ReservedOffset
    cases c <;> simp only [Ctx.bit_p_toNat, Ctx.bit_n_toNat] at h <;> omega
  | ctxA j =>
    refine (storedOffset_iff_of_contextOffset ?_).symm
    unfold PortReg.IsAt at h
    unfold ContextOffset ReservedOffset
    omega

end

/-- Settles O50: the write goes to the register at `off`. Two offsets share a register only in the reserved space, where
nothing is stored. -/
theorem portReadAfterWrite : Obligations.PortReadAfterWrite := by
  intro s off v ha h0 hw
  have hat := portReg_isAt ha hw
  have hcmd : portReg off ≠ .cmd := by
    intro hc
    rw [hc] at hat
    exact h0.ne' hat
  refine ⟨writeReg (portReg off) v s, hostWrite_of_portReg_ne_cmd hcmd v s,
    fun hst => readReg_writeReg_same ((stores_iff_storedOffset hat).mpr hst) v,
    fun hst => writeReg_of_not_stores (mt (stores_iff_storedOffset hat).mp hst) v, fun off' ha' hw' hne => ?_⟩
  by_cases hst : (portReg off).Stores s
  · refine readReg_writeReg_other (fun hreg => hne ?_) v
    have hat' : (portReg off).IsAt off' := hreg ▸ portReg_isAt ha' hw'
    refine hat'.unique hat (fun hres => ?_)
    rw [hres] at hst
    exact hst
  · rw [writeReg_of_not_stores hst]

/-! ### Which accesses run (R61) -/

section

variable {s : State} {run : Host.Outcome State Fault Refusal}

theorem exists_next_whenLocked (h : ∃ t, run = .next t) : ∃ t, whenLocked s run = .next t := by
  unfold whenLocked
  split
  · exact h
  · exact ⟨_, rfl⟩

theorem exists_next_whenInBounds {ok : Bool} (h : ∃ t, run = .next t) : ∃ t, whenInBounds ok s run = .next t := by
  unfold whenInBounds
  split
  · exact h
  · exact ⟨_, rfl⟩

/-- Every command ends in a next state (R210). -/
theorem exists_next_exec (i : Instr) (s : State) : ∃ t, exec i s = .next t := by
  cases i with
  | nop | setsmall | add | sub | cmov | iszero | eq | lock | zeroize => exact ⟨_, rfl⟩
  | tobytes | montmul | tomont | frommont | modadd | modsub => exact exists_next_whenLocked ⟨_, rfl⟩
  | pdbl | padd | toaffine | scalarmul => exact exists_next_whenInBounds (exists_next_whenLocked ⟨_, rfl⟩)
  | frombytes | finv =>
    refine exists_next_whenLocked ?_
    split
    · exact ⟨_, rfl⟩
    · exact ⟨_, rfl⟩

theorem exists_next_runCommand (w : Word32) (s : State) : ∃ t, runCommand w s = .next t := by
  unfold runCommand
  split
  · exact exists_next_exec _ s
  · exact ⟨_, rfl⟩

theorem exists_next_hostWrite (off : Nat) (v : Word32) (s : State) : ∃ t, hostWrite off v s = .next t := by
  unfold hostWrite
  split
  · exact exists_next_runCommand v s
  · exact ⟨_, rfl⟩

/-- An access that is no MFCE access is refused (R61). -/
theorem exists_refused_whenAccepted {bits off : Nat} (h : bits ≠ 32 ∨ off % 4 ≠ 0 ∨ 0x3FC < off) :
    ∃ r, whenAccepted bits off run = .refused r := by
  unfold whenAccepted
  split
  · exact ⟨_, rfl⟩
  · next hnone =>
    simp only [accessRefusal, ite_eq_iff, reduceCtorEq, and_false, false_or, not_not, not_le] at hnone
    obtain ⟨hbits, halign, hwindow, -⟩ := hnone
    simp only [Config.windowBytes] at hwindow
    omega

end

/-- Settles O51: the acceptance check refuses what is no MFCE access, and what it lets through ends in a next state. -/
theorem onlyPortAccessesAccepted : Obligations.OnlyPortAccessesAccepted := by
  intro s bits off v rest
  refine ⟨fun h => ⟨?_, ?_⟩, fun hb ha hw => ⟨?_, ?_⟩⟩
  · exact exists_refused_whenAccepted h
  · exact exists_refused_whenAccepted h
  · exact ⟨_, whenAccepted_accepted hb ha (by omega) _⟩
  · obtain ⟨t, ht⟩ := exists_next_hostWrite off v { s with pending := rest }
    exact ⟨t, (whenAccepted_accepted hb ha (by omega) _).trans ht⟩

/-! ### The bytes of a value in the host's words (R66) -/

theorem toBe32_getElem (v : Elem) (k : Nat) (hk : k < 32) : (toBe32 v)[k] = v.extractLsb' (8 * (31 - k)) 8 := by
  simp only [toBe32, Vector.getElem_ofFn]

/-- The bytes of a limb are bytes of the value. -/
theorem limb_byte (v : Elem) (j : Fin 8) {k : Nat} (hk : k < 4) :
    (limb v j).extractLsb' (8 * k) 8 = v.extractLsb' (32 * j.val + 8 * k) 8 := by
  ext i hi
  simp only [limb, BitVec.getElem_extractLsb', BitVec.getLsbD_extractLsb', Nat.add_assoc]
  rw [decide_eq_true (by omega : 8 * k + i < 32), Bool.true_and]

/-- The host's words of the bytes of a value: its limbs stand last first, each with its bytes swapped (R66). -/
theorem dbufWord_toBe32 (v : Elem) (w : Fin 8) :
    dbufWord (toBe32 v) w = byteswap32 (limb v ⟨7 - w.val, by omega⟩) := by
  have hbyte : ∀ k (hk : k < 4),
      (toBe32 v)[4 * w.val + (3 - k)] = (limb v ⟨7 - w.val, by omega⟩).extractLsb' (8 * k) 8 := by
    intro k hk
    rw [toBe32_getElem, limb_byte v _ hk]
    congr 1
    simp only []
    omega
  exact congrArg₂ (· ++ ·) (congrArg₂ (· ++ ·) (congrArg₂ (· ++ ·) (hbyte 0 (by decide)) (hbyte 1 (by decide)))
    (hbyte 2 (by decide))) (hbyte 3 (by decide))

/-- Settles O52: TOBYTES of a locked engine leaves the bytes of the value in `DBUF`. -/
theorem tobytesSeenByteSwapped : Obligations.TobytesSeenByteSwapped := by
  intro ra ctx s hs
  refine ⟨_, whenLocked_locked hs _, fun w => ?_⟩
  rw [hostRead_of_isAt (r := .dbuf w) rfl]
  exact dbufWord_toBe32 _ w

end Sys2Proof.Machine

/-! # Proofs of the family of the command encoding (spec/30_encoding.md)

The plan: `Instr.SpelledBy` says when a word spells a command: it lies in the command's row of R96 and its fields hold the
operands. The encoder, the decoder and the opcode table are each tied to it once (`spelledBy_encode` and
`Instr.SpelledBy.encode_eq`, `decode_eq_ok_iff`, `exists_legal_row_iff`), and the statements about encodings follow. The
statements about the order of the checks and the result code rest on what `exec` does with a command turned away by
`LOCKED` (`exec_of_unlocked`) and with one that is admitted (`exec_of_admitted`). -/

namespace Sys2Proof

open Sys2Proof.Spec Sys2Proof.Laws

/-! ### Masked words, field by field (R91, R96) -/

section

variable {w mask value : Word32}

/-- A field that the mask covers whole has its value in `value`. -/
theorem extractLsb'_of_mask (h : w &&& mask = value) {start len : Nat}
    (hm : mask.extractLsb' start len = BitVec.allOnes len) : w.extractLsb' start len = value.extractLsb' start len := by
  rw [← h, BitVec.extractLsb'_and, hm, BitVec.and_allOnes]

/-- The operand `x` stands in the field of `len` bits at `start`: it is that field of the word, or the mask covers the
field whole and `value` holds `x` there. -/
def OperandAt (w mask value : Word32) (start len : Nat) (x : BitVec len) : Prop :=
  x = w.extractLsb' start len ∨ mask.extractLsb' start len = BitVec.allOnes len ∧ x = value.extractLsb' start len

theorem OperandAt.read {start len : Nat} {x : BitVec len} (h : x = w.extractLsb' start len) :
    OperandAt w mask value start len x := .inl h

theorem OperandAt.fixed {start len : Nat} {x : BitVec len} (hm : mask.extractLsb' start len = BitVec.allOnes len)
    (hx : x = value.extractLsb' start len) : OperandAt w mask value start len x := .inr ⟨hm, hx⟩

theorem OperandAt.eq {start len : Nat} {x : BitVec len} (hx : OperandAt w mask value start len x)
    (h : w &&& mask = value) : x = w.extractLsb' start len := by
  obtain hx | ⟨hm, hx⟩ := hx
  · exact hx
  · rw [hx, extractLsb'_of_mask h hm]

/-- A word of format R is made of its fields. -/
theorem formR_fields (hlow : w.extractLsb' 0 7 = 0#7) :
    formR (opField w) (rdField w) (raField w) (rbField w) (condField w) (ctxField w) = w := by
  apply BitVec.eq_of_toNat_eq
  have hw := w.isLt
  have hlow := congrArg BitVec.toNat hlow
  simp only [BitVec.extractLsb'_toNat, Nat.shiftRight_eq_div_pow, BitVec.toNat_ofNat] at hlow
  simp only [formR_toNat, opField, rdField, raField, rbField, condField, ctxField, BitVec.val_toFin,
    BitVec.extractLsb'_toNat, Nat.shiftRight_eq_div_pow]
  omega

/-- A word of format I is made of its fields. -/
theorem formI_fields (hzero : w.extractLsb' 16 4 = 0#4) : formI (opField w) (rdField w) (immField w) = w := by
  apply BitVec.eq_of_toNat_eq
  have hw := w.isLt
  have hzero := congrArg BitVec.toNat hzero
  simp only [BitVec.extractLsb'_toNat, Nat.shiftRight_eq_div_pow, BitVec.toNat_ofNat] at hzero
  simp only [formI_toNat, opField, rdField, immField, BitVec.val_toFin,
    BitVec.extractLsb'_toNat, Nat.shiftRight_eq_div_pow]
  omega

/-- A word of a row of format R is made of the row's opcode and operands. -/
theorem formR_eq_of_row {op : BitVec 8} {rd ra rb : Reg} {cond : BitVec 4} {ctx : BitVec 1} (h : w &&& mask = value)
    (hop : OperandAt w mask value 24 8 op) (hrd : OperandAt w mask value 20 4 (BitVec.ofFin rd))
    (hra : OperandAt w mask value 16 4 (BitVec.ofFin ra)) (hrb : OperandAt w mask value 12 4 (BitVec.ofFin rb))
    (hcond : OperandAt w mask value 8 4 cond) (hctx : OperandAt w mask value 7 1 ctx)
    (hlow : OperandAt w mask value 0 7 0#7) : formR op rd ra rb cond ctx = w := by
  obtain rfl : op = opField w := hop.eq h
  obtain rfl : rd = rdField w := congrArg BitVec.toFin (hrd.eq h)
  obtain rfl : ra = raField w := congrArg BitVec.toFin (hra.eq h)
  obtain rfl : rb = rbField w := congrArg BitVec.toFin (hrb.eq h)
  obtain rfl : cond = condField w := hcond.eq h
  obtain rfl : ctx = ctxField w := hctx.eq h
  exact formR_fields (hlow.eq h).symm

end

/-! ### The words that spell a command -/

/-- The operands of the command stand in the fields of the word (R91, R92). -/
def Instr.OperandsIn (w : Word32) : Instr → Prop
  | .nop | .lock | .zeroize => True
  | .setsmall rd imm16 => rd = rdField w ∧ imm16 = immField w
  | .add rd ra rb | .sub rd ra rb | .padd rd ra rb | .scalarmul rd ra rb =>
    rd = rdField w ∧ ra = raField w ∧ rb = rbField w
  | .cmov rd ra cond => rd = rdField w ∧ ra = raField w ∧ cond.code = condField w
  | .iszero ra => ra = raField w
  | .eq ra rb => ra = raField w ∧ rb = rbField w
  | .frombytes rd ctx => rd = rdField w ∧ ctx = Ctx.ofBit (ctxField w)
  | .tobytes ra ctx => ra = raField w ∧ ctx = Ctx.ofBit (ctxField w)
  | .montmul rd ra rb ctx | .modadd rd ra rb ctx | .modsub rd ra rb ctx =>
    rd = rdField w ∧ ra = raField w ∧ rb = rbField w ∧ ctx = Ctx.ofBit (ctxField w)
  | .tomont rd ra ctx | .frommont rd ra ctx | .finv rd ra ctx =>
    rd = rdField w ∧ ra = raField w ∧ ctx = Ctx.ofBit (ctxField w)
  | .pdbl rd ra | .toaffine rd ra => rd = rdField w ∧ ra = raField w

/-- The word is one of the command's row of R96, and its fields hold the command's operands. -/
def Instr.SpelledBy (i : Instr) (w : Word32) : Prop := w &&& rowMask i = rowMatch i ∧ i.OperandsIn w

section

variable {w : Word32} {i : Instr}

/-- The encoding of a command lies in its row (R96): the family `RowMatch`, for every command. -/
theorem encode_and_rowMask (i : Instr) : encode i &&& rowMask i = rowMatch i :=
  match i with
  | .nop => RowMatch.nop
  | .setsmall rd imm16 => RowMatch.setsmall rd imm16
  | .add rd ra rb => RowMatch.add rd ra rb
  | .sub rd ra rb => RowMatch.sub rd ra rb
  | .cmov rd ra cond => RowMatch.cmov rd ra cond
  | .iszero ra => RowMatch.iszero ra
  | .eq ra rb => RowMatch.eq ra rb
  | .frombytes rd ctx => RowMatch.frombytes rd ctx
  | .tobytes ra ctx => RowMatch.tobytes ra ctx
  | .montmul rd ra rb ctx => RowMatch.montmul rd ra rb ctx
  | .tomont rd ra ctx => RowMatch.tomont rd ra ctx
  | .frommont rd ra ctx => RowMatch.frommont rd ra ctx
  | .modadd rd ra rb ctx => RowMatch.modadd rd ra rb ctx
  | .modsub rd ra rb ctx => RowMatch.modsub rd ra rb ctx
  | .finv rd ra ctx => RowMatch.finv rd ra ctx
  | .pdbl rd ra => RowMatch.pdbl rd ra
  | .padd rd ra rb => RowMatch.padd rd ra rb
  | .toaffine rd ra => RowMatch.toaffine rd ra
  | .scalarmul rd ra rb => RowMatch.scalarmul rd ra rb
  | .lock => RowMatch.lock
  | .zeroize => RowMatch.zeroize

/-- The operands of a command are read back from its encoding. -/
theorem operandsIn_encode (i : Instr) : i.OperandsIn (encode i) := by
  cases i <;> simp only [Instr.OperandsIn, encode, rdField_formR, raField_formR, rbField_formR, condField_formR,
    ctxField_formR, rdField_formI, immField_formI, Ctx.ofBit_bit,
    and_self]

theorem spelledBy_encode (i : Instr) : i.SpelledBy (encode i) := ⟨encode_and_rowMask i, operandsIn_encode i⟩

/-- A command is spelled by no word but its encoding: the row fixes every field that holds no operand. -/
theorem Instr.SpelledBy.encode_eq (h : i.SpelledBy w) : encode i = w := by
  obtain ⟨hrow, hargs⟩ := h
  cases i with simp only [rowMask, rowMatch] at hrow
  | nop | lock | zeroize =>
    exact formR_eq_of_row hrow (.fixed rfl rfl) (.fixed rfl rfl) (.fixed rfl rfl) (.fixed rfl rfl) (.fixed rfl rfl)
      (.fixed rfl rfl) (.fixed rfl rfl)
  | setsmall rd imm16 =>
    obtain ⟨rfl, rfl⟩ := hargs
    have hop : opField w = 0x01 := extractLsb'_of_mask hrow rfl
    have hzero : w.extractLsb' 16 4 = 0#4 := extractLsb'_of_mask hrow rfl
    calc encode (.setsmall (rdField w) (immField w))
        = formI (opField w) (rdField w) (immField w) := by rw [hop]; rfl
      _ = w := formI_fields hzero
  | add rd ra rb | sub rd ra rb | padd rd ra rb | scalarmul rd ra rb =>
    obtain ⟨rfl, rfl, rfl⟩ := hargs
    exact formR_eq_of_row hrow (.fixed rfl rfl) (.read rfl) (.read rfl) (.read rfl) (.fixed rfl rfl) (.fixed rfl rfl)
      (.fixed rfl rfl)
  | cmov rd ra cond =>
    obtain ⟨rfl, rfl, hcond⟩ := hargs
    exact formR_eq_of_row hrow (.fixed rfl rfl) (.read rfl) (.read rfl) (.fixed rfl rfl) (.read hcond) (.fixed rfl rfl)
      (.fixed rfl rfl)
  | iszero ra =>
    obtain rfl : ra = raField w := hargs
    exact formR_eq_of_row hrow (.fixed rfl rfl) (.fixed rfl rfl) (.read rfl) (.fixed rfl rfl) (.fixed rfl rfl)
      (.fixed rfl rfl) (.fixed rfl rfl)
  | eq ra rb =>
    obtain ⟨rfl, rfl⟩ := hargs
    exact formR_eq_of_row hrow (.fixed rfl rfl) (.fixed rfl rfl) (.read rfl) (.read rfl) (.fixed rfl rfl)
      (.fixed rfl rfl) (.fixed rfl rfl)
  | frombytes rd ctx =>
    obtain ⟨rfl, rfl⟩ := hargs
    exact formR_eq_of_row hrow (.fixed rfl rfl) (.read rfl) (.fixed rfl rfl) (.fixed rfl rfl) (.fixed rfl rfl)
      (.read (Ctx.bit_ofBit _)) (.fixed rfl rfl)
  | tobytes ra ctx =>
    obtain ⟨rfl, rfl⟩ := hargs
    exact formR_eq_of_row hrow (.fixed rfl rfl) (.fixed rfl rfl) (.read rfl) (.fixed rfl rfl) (.fixed rfl rfl)
      (.read (Ctx.bit_ofBit _)) (.fixed rfl rfl)
  | montmul rd ra rb ctx | modadd rd ra rb ctx | modsub rd ra rb ctx =>
    obtain ⟨rfl, rfl, rfl, rfl⟩ := hargs
    exact formR_eq_of_row hrow (.fixed rfl rfl) (.read rfl) (.read rfl) (.read rfl) (.fixed rfl rfl) (.read (Ctx.bit_ofBit _))
      (.fixed rfl rfl)
  | tomont rd ra ctx | frommont rd ra ctx | finv rd ra ctx =>
    obtain ⟨rfl, rfl, rfl⟩ := hargs
    exact formR_eq_of_row hrow (.fixed rfl rfl) (.read rfl) (.read rfl) (.fixed rfl rfl) (.fixed rfl rfl) (.read (Ctx.bit_ofBit _))
      (.fixed rfl rfl)
  | pdbl rd ra | toaffine rd ra =>
    obtain ⟨rfl, rfl⟩ := hargs
    exact formR_eq_of_row hrow (.fixed rfl rfl) (.read rfl) (.read rfl) (.fixed rfl rfl) (.fixed rfl rfl)
      (.fixed rfl rfl) (.fixed rfl rfl)

end

section

variable {w mask value zeros : Word32} {i : Instr}

/-! ### A row as an opcode and its unused fields (R96, R98) -/

theorem and_opcodeMask (w : Word32) : w &&& 0xFF000000 = opField w ++ 0#24 := by
  have hw : opField w ++ w.extractLsb' 0 24 = w := BitVec.extractLsb'_append_extractLsb'
  calc w &&& 0xFF000000
      = (opField w ++ w.extractLsb' 0 24) &&& (BitVec.allOnes 8 ++ 0#24) := congrArg (· &&& _) hw.symm
    _ = opField w ++ 0#24 := by rw [BitVec.and_append, BitVec.and_allOnes, BitVec.and_zero]

/-- A word of a row has the row's opcode. -/
theorem opField_of_row (h : w &&& mask = value) (hmask : opField mask = BitVec.allOnes 8) :
    opField w = opField value := extractLsb'_of_mask h hmask

/-- A word of a row has zeros in the fields that the mask covers and the match leaves zero. -/
theorem and_zeros_of_row (h : w &&& mask = value) (hmask : mask &&& zeros = zeros) (hvalue : value &&& zeros = 0) :
    w &&& zeros = 0 := by
  calc w &&& zeros = w &&& mask &&& zeros := by rw [BitVec.and_assoc, hmask]
    _ = 0 := by rw [h, hvalue]

/-- A word with the row's opcode and with zeros in the fields that the row does not use is a word of the row. -/
theorem row_of_opField (hmask : mask = 0xFF000000 ||| zeros) (hvalue : value = opField value ++ 0#24)
    (hop : opField w = opField value) (hz : w &&& zeros = 0) : w &&& mask = value := by
  calc w &&& mask = w &&& 0xFF000000 ||| w &&& zeros := by rw [hmask, BitVec.and_or_distrib_left]
    _ = opField value ++ 0#24 ||| 0#32 := by rw [and_opcodeMask, hop, hz]; rfl
    _ = value := by rw [BitVec.or_zero, ← hvalue]

/-! ### The decoder -/

/-- A word that spells a well-formed command decodes to it. -/
theorem Instr.SpelledBy.decode_eq (h : i.SpelledBy w) (hwf : i.wf = true) : decode w = .ok i := by
  obtain ⟨hrow, hargs⟩ := h
  cases i with
    (simp only [rowMask, rowMatch] at hrow
     simp only [Instr.OperandsIn] at hargs
     have hop := congrArg BitVec.toNat (opField_of_row hrow (by decide)))
  | nop | lock | zeroize =>
    simp only [decode, hop]
    exact withZeros_zero (and_zeros_of_row hrow (by decide) (by decide)) _
  | setsmall | add | sub | iszero | eq | frombytes | tobytes | montmul | tomont | frommont | modadd | modsub | finv =>
    simp only [decode, hop, hargs]
    exact withZeros_zero (and_zeros_of_row hrow (by decide) (by decide)) _
  | pdbl | padd | toaffine | scalarmul =>
    simp only [decode, hop, ← hargs]
    exact (withZeros_zero (and_zeros_of_row hrow (by decide) (by decide)) _).trans (if_pos hwf)
  | cmov rd ra cond =>
    obtain ⟨hrd, hra, hcond⟩ := hargs
    simp only [decode, hop, ← hcond, withCond, Cond.ofCode_code, hrd, hra]
    exact withZeros_zero (and_zeros_of_row hrow (by decide) (by decide)) _

/-- The decoder accepts only words that spell the command it gives. -/
theorem spelledBy_of_decode (h : decode w = .ok i) : i.SpelledBy w ∧ i.wf = true := by
  unfold decode at h
  split at h
  -- CMOV: its code names a condition
  case h_5 hop =>
    obtain ⟨hz, hcond⟩ := withZeros_ok h
    obtain ⟨cond, hcode, rfl⟩ := withCond_ok hcond
    simp only [Instr.SpelledBy, rowMask, rowMatch]
    exact ⟨⟨row_of_opField (by decide) (by decide) (BitVec.eq_of_toNat_eq hop) hz, rfl, rfl,
      (Cond.code_of_ofCode hcode).1⟩, rfl⟩
  -- the curve commands: their group operands are in bounds
  case h_16 hop | h_17 hop | h_18 hop | h_19 hop =>
    obtain ⟨hz, hbounds⟩ := withZeros_ok h
    obtain ⟨hwf, rfl⟩ := withBounds_ok hbounds
    simp only [Instr.SpelledBy, rowMask, rowMatch, Instr.OperandsIn, and_self, and_true]
    exact ⟨row_of_opField (by decide) (by decide) (BitVec.eq_of_toNat_eq hop) hz, hwf⟩
  -- no opcode of the table
  case h_22 => cases h
  all_goals next hop =>
    obtain ⟨hz, hi⟩ := withZeros_ok h
    obtain rfl := Except.ok.inj hi
    simp only [Instr.SpelledBy, rowMask, rowMatch, Instr.OperandsIn, and_self, and_true]
    exact ⟨row_of_opField (by decide) (by decide) (BitVec.eq_of_toNat_eq hop) hz, rfl⟩

theorem decode_eq_ok_iff : decode w = .ok i ↔ i.SpelledBy w ∧ i.wf = true :=
  ⟨spelledBy_of_decode, fun ⟨h, hwf⟩ => h.decode_eq hwf⟩

/-! ### The opcode table -/

/-- The code a row of CMOV admits is the code of the condition it names (R97). -/
theorem Cond.code_getD_ofCode {b : BitVec 4} (h : b.toNat ≤ 9) : ((Cond.ofCode b).getD .never).code = b := by
  revert b; decide

/-- A word that is a legal form of a row spells the row's command. -/
theorem spelledBy_of_legal {r : TableRow} (hr : r ∈ tableRows w) (h : r.Legal w) :
    r.command.SpelledBy w ∧ r.command.wf = true := by
  obtain ⟨hrow, hbounds⟩ := h
  simp only [tableRows, List.mem_cons, List.not_mem_nil, or_false] at hr
  rcases hr with rfl | rfl | rfl | rfl | rfl | rfl | rfl | rfl | rfl | rfl | rfl | rfl | rfl | rfl | rfl | rfl | rfl |
    rfl | rfl | rfl | rfl
  -- the row of CMOV, whose bound is on the condition code
  case inr.inr.inr.inr.inl =>
    exact ⟨⟨hrow, rfl, rfl, Cond.code_getD_ofCode (of_decide_eq_true hbounds)⟩, rfl⟩
  all_goals
    refine ⟨⟨hrow, by simp only [Instr.OperandsIn, and_self]⟩, ?_⟩
    revert hbounds
    simp only [Instr.wf, Reg.tripleBase, Reg.pairBase, Bool.decide_and, Bool.and_assoc, imp_self]

/-- The row of a well-formed command whose operands are the word's fields. -/
theorem row_mem_tableRows (h : i.OperandsIn w) (hwf : i.wf = true) :
    ⟨rowMask i, rowMatch i, true, i⟩ ∈ tableRows w := by
  cases i with simp only [Instr.OperandsIn] at h
  | nop | lock | zeroize => simp [tableRows, rowMask, rowMatch]
  | cmov rd ra cond =>
    obtain ⟨rfl, rfl, hcond⟩ := h
    have hcode := (Cond.code_of_ofCode (Cond.ofCode_code cond)).2
    simp [tableRows, rowMask, rowMatch, ← hcond, hcode]
  | pdbl | padd | toaffine | scalarmul =>
    simp only [Instr.wf, Reg.tripleBase, Reg.pairBase, Bool.and_eq_true, decide_eq_true_eq] at hwf
    simp [tableRows, rowMask, rowMatch, ← h, hwf]
  | _ => simp [tableRows, rowMask, rowMatch, h]

theorem exists_legal_row_iff : (∃ r ∈ tableRows w, r.Legal w ∧ r.command = i) ↔ i.SpelledBy w ∧ i.wf = true := by
  constructor
  · rintro ⟨r, hr, hlegal, rfl⟩
    exact spelledBy_of_legal hr hlegal
  · rintro ⟨⟨hrow, hargs⟩, hwf⟩
    exact ⟨_, row_mem_tableRows hargs hwf, ⟨hrow, rfl⟩, rfl⟩

end

/-- Settles O1: the encoding of a command spells it. -/
theorem decodeOfEncode : Obligations.DecodeOfEncode :=
  fun i hwf => (spelledBy_encode i).decode_eq hwf

/-- Settles O2: the decoder gives a command only to a word that spells it, and that word is the command's encoding. -/
theorem encodeOfDecode : Obligations.EncodeOfDecode := by
  intro w i h
  obtain ⟨hspelled, hwf⟩ := spelledBy_of_decode h
  exact ⟨hwf, hspelled.encode_eq⟩

/-- Settles O3: the decoder and the table both give a word the well-formed command it spells. -/
theorem decodeFollowsOpcodeTable : Obligations.DecodeFollowsOpcodeTable :=
  fun _ _ => decode_eq_ok_iff.trans exists_legal_row_iff.symm

/-- Settles O4: each word is the encoding of its well-formed command. -/
theorem sampleWordsDecode : Obligations.SampleWordsDecode :=
  ⟨decodeOfEncode .nop rfl, decodeOfEncode .lock rfl, decodeOfEncode (.setsmall 3 0x1234) rfl,
    decodeOfEncode (.add 2 0 1) rfl, decodeOfEncode (.cmov 15 14 .lt) rfl, decodeOfEncode (.frombytes 1 .n) rfl,
    decodeOfEncode (.montmul 3 1 2 .p) rfl, decodeOfEncode (.pdbl 13 13) rfl, decodeOfEncode (.scalarmul 14 15 14) rfl⟩

end Sys2Proof

namespace Sys2Proof.Machine

open Sys2Proof Sys2Proof.Spec Sys2Proof.Laws

/-! ### The admission of a well-formed command (R101) -/

section

variable {i : Instr} {s : State} {w : Word32}

/-- The commands that use a context are those with an opcode from 0x08 to 0x13 (R101). -/
theorem usesContext_iff_opField (h : i.SpelledBy w) :
    usesContext i = true ↔ 0x08 ≤ (opField w).toNat ∧ (opField w).toNat ≤ 0x13 := by
  obtain ⟨hrow, -⟩ := h
  cases i with
    (simp only [rowMask, rowMatch] at hrow
     rw [opField_of_row hrow (by decide)]
     simp only [usesContext])
  | _ => decide

/-- A command that uses a context is turned away while unlocked. -/
theorem exec_of_unlocked (hwf : i.wf = true) (hctx : usesContext i = true) (hs : s.locked = false) :
    exec i s = .next { s with err := .notConfigured } := by
  cases i with
  | nop | setsmall | add | sub | cmov | iszero | eq | lock | zeroize => cases hctx
  | frombytes | tobytes | montmul | tomont | frommont | modadd | modsub | finv => exact whenLocked_unlocked hs _
  | pdbl | padd | toaffine | scalarmul => exact (if_pos hwf).trans (whenLocked_unlocked hs _)

/-- FROMBYTES admitted: the range check, then the conversion (R140). -/
theorem exec_frombytes_of_locked (rd : Reg) (ctx : Ctx) (hs : s.locked = true) :
    exec (.frombytes rd ctx) s =
      if (s.bank ctx).m ≤ be32 s.dbuf then failWith .outOfRange s else complete (effect (.frombytes rd ctx) s) :=
  whenLocked_locked hs _

/-- FINV admitted: the test for zero, then the power (R155, R214). -/
theorem exec_finv_of_locked (rd ra : Reg) (ctx : Ctx) (hs : s.locked = true) :
    exec (.finv rd ra ctx) s =
      if isZeroElem (s.getF ra) then failWith .curveOperationFailure (s.setF rd 0)
      else complete (effect (.finv rd ra ctx) s) :=
  whenLocked_locked hs _

/-- An admitted command completes with its effect; FROMBYTES and FINV alone have a check of their own besides. -/
theorem exec_of_admitted (hwf : i.wf = true) (hs : usesContext i = true → s.locked = true)
    (hfrombytes : ∀ rd ctx, i ≠ .frombytes rd ctx) (hfinv : ∀ rd ra ctx, i ≠ .finv rd ra ctx) :
    exec i s = complete (effect i s) := by
  cases i with
  | nop | setsmall | add | sub | cmov | iszero | eq | lock | zeroize => rfl
  | tobytes | montmul | tomont | frommont | modadd | modsub => exact whenLocked_locked (hs rfl) _
  | pdbl | padd | toaffine | scalarmul => exact (if_pos hwf).trans (whenLocked_locked (hs rfl) _)
  | frombytes rd ctx => exact absurd rfl (hfrombytes rd ctx)
  | finv rd ra ctx => exact absurd rfl (hfinv rd ra ctx)

end

/-! ### The result of a command word (R99, R101, R102) -/

section

variable {i : Instr} {s : State} {w : Word32}

theorem runCommand_of_illegal (h : ∀ i, decode w ≠ .ok i) (s : State) :
    runCommand w s = .next { s with err := .illegalCommand } := by
  unfold runCommand
  split
  · exact absurd ‹_› (h _)
  · rfl

theorem resultCode_of_illegal (h : ∀ i, decode w ≠ .ok i) (s : State) : resultCode w s = .illegalCommand := by
  unfold resultCode
  split
  · rfl
  · exact absurd ‹_› (h _)

theorem resultCode_of_unlocked (h : decode w = .ok i) (hctx : usesContext i = true) (hs : s.locked = false) :
    resultCode w s = .notConfigured := by
  simp only [resultCode, h, hctx, hs, and_self, if_true]

/-- A legal command word ends with the code that `resultCode` gives it. -/
theorem exec_err_eq_resultCode (h : decode w = .ok i) (s : State) :
    ∃ t, exec i s = .next t ∧ t.err = resultCode w s := by
  obtain ⟨-, hwf⟩ := spelledBy_of_decode h
  by_cases hturned : usesContext i = true ∧ s.locked = false
  · obtain ⟨hctx, hs⟩ := hturned
    exact ⟨_, exec_of_unlocked hwf hctx hs, (resultCode_of_unlocked h hctx hs).symm⟩
  · have hs : usesContext i = true → s.locked = true := by simpa using hturned
    cases i with
    | frombytes rd ctx =>
      simp only [resultCode, h, if_neg hturned, exec_frombytes_of_locked rd ctx (hs rfl), BitVec.le_def]
      split <;> exact ⟨_, rfl, rfl⟩
    | finv rd ra ctx =>
      simp only [resultCode, h, if_neg hturned, exec_finv_of_locked rd ra ctx (hs rfl), isZeroElem, decide_eq_true_eq]
      split <;> exact ⟨_, rfl, rfl⟩
    | _ =>
      refine ⟨_, exec_of_admitted hwf hs nofun nofun, ?_⟩
      simp only [resultCode, h, if_neg hturned]

end

/-- Settles O6: a word of no row is a word the decoder rejects. -/
theorem illegalWordOnlySetsErr : Obligations.IllegalWordOnlySetsErr := by
  intro s w hnone
  refine runCommand_of_illegal (fun i hi => hnone ?_) s
  obtain ⟨r, hr, hlegal, -⟩ := (decodeFollowsOpcodeTable w i).mp hi
  exact ⟨r, hr, hlegal⟩

/-- Settles O7: the opcode tells which commands use a context, and a legal word is well formed. -/
theorem decodingOrder : Obligations.DecodingOrder := by
  intro s w
  refine ⟨fun h => runCommand_of_illegal h s, fun i hi hlo hhi hs => ?_, fun i hi _ => runCommand_of_decode_ok hi s⟩
  obtain ⟨hspelled, hwf⟩ := spelledBy_of_decode hi
  calc hostWrite 0x000 w s
      = exec i s := runCommand_of_decode_ok hi s
    _ = .next { s with err := .notConfigured } :=
        exec_of_unlocked hwf ((usesContext_iff_opField hspelled).mpr ⟨hlo, hhi⟩) hs

/-- Settles O8: an illegal word by R99, a legal one by the checks of its command. -/
theorem everyCommandWritesErr : Obligations.EveryCommandWritesErr := by
  intro w s
  by_cases h : ∃ i, decode w = .ok i
  · obtain ⟨i, hi⟩ := h
    rw [runCommand_of_decode_ok hi]
    exact exec_err_eq_resultCode hi s
  · rw [not_exists] at h
    exact ⟨_, runCommand_of_illegal h s, (resultCode_of_illegal h s).symm⟩

/-! ### Conditions (R97) -/

/-- GE after ADD and SUB: the carry of the addition, or no borrow of the subtraction from the wrapped sum, says that the
257-bit sum is at least the modulus. -/
theorem carryOut_or_not_borrowOut (a b m : Elem) :
    (carryOut a b || !borrowOut (a + b) m) = true ↔ m.toNat ≤ a.toNat + b.toNat := by
  have hm := m.isLt
  simp only [carryOut, borrowOut, Bool.or_eq_true, Bool.not_eq_true', decide_eq_true_eq, decide_eq_false_iff_not,
    BitVec.toNat_add]
  omega

section

variable {s t : State} {rd ra rb : Reg}

/-- What ADD leaves for the commands after it (R122). -/
theorem result_of_exec_add (h : exec (.add rd ra rb) s = .next t) :
    t.getF rd = s.getF ra + s.getF rb ∧ t.cy = carryOut (s.getF ra) (s.getF rb) ∧ ∀ q, q ≠ rd → t.getF q = s.getF q := by
  obtain rfl := Host.Outcome.next.inj h
  exact ⟨State.getF_setF_same s rd _, rfl, fun _ hq => State.getF_setF_other s _ hq⟩

/-- What SUB leaves for the commands after it: its own borrow, and the carry it found (R123). -/
theorem result_of_exec_sub (h : exec (.sub rd ra rb) s = .next t) :
    t.getF rd = s.getF ra - s.getF rb ∧ t.bw = borrowOut (s.getF ra) (s.getF rb) ∧ t.cy = s.cy ∧
      ∀ q, q ≠ rd → t.getF q = s.getF q := by
  obtain rfl := Host.Outcome.next.inj h
  exact ⟨State.getF_setF_same s rd _, rfl, rfl, fun _ hq => State.getF_setF_other s _ hq⟩

end

/-- Settles O14: the table by evaluation, and GE with the carry that SUB leaves and the copy of the modulus that ADD
leaves. -/
theorem conditionTable : Obligations.ConditionTable := by
  refine ⟨fun s => ⟨rfl, rfl, rfl, rfl, rfl, rfl, rfl, rfl, rfl, rfl, rfl, rfl, rfl, rfl, rfl, rfl, rfl, rfl, rfl, rfl,
    ?_⟩, by decide, ?_⟩
  · simp only [condHolds, Bool.not_or, Bool.not_not]
  · intro s t u rt ra rb ru rm hne ht hu
    obtain ⟨hsum, hcarry, hkept⟩ := result_of_exec_add ht
    obtain ⟨-, hborrow, hcy, -⟩ := result_of_exec_sub hu
    have hge : condHolds .ge u = (u.cy || !u.bw) := rfl
    rw [hge, hcy, hcarry, hborrow, hsum, hkept rm hne]
    exact carryOut_or_not_borrowOut _ _ _

/-! ### Pseudo-instructions (R105) -/

section

variable {s t : State} {rd ra : Reg} {ctx : Ctx}

theorem State.SameConfig.bank_eq (h : t.SameConfig s) (ctx : Ctx) : t.bank ctx = s.bank ctx := by
  obtain ⟨-, hp, -, hn⟩ := h
  cases ctx with
  | p => exact hp
  | n => exact hn

theorem getF_of_exec_setsmall {imm16 : BitVec 16} (h : exec (.setsmall rd imm16) s = .next t) :
    t.getF rd = immValue imm16 := by
  obtain rfl := Host.Outcome.next.inj h
  exact State.getF_setF_same s rd _

/-- SETONE leaves `one(ctx)`: TOMONT reads the 1 that SETSMALL wrote. -/
theorem exec_setone (hs : s.locked = true) :
    ∃ t u, exec (.setsmall rd 1) s = .next t ∧ exec (.tomont rd rd ctx) t = .next u ∧
      u.getF rd = montOne (s.bank ctx) ∧ u.err = .ok := by
  obtain ⟨t, ht⟩ := exists_next_exec (.setsmall rd 1) s
  have hone : t.getF rd = 1 := getF_of_exec_setsmall ht
  have hconfig := exec_sameConfig hs ht
  refine ⟨t, _, ht, whenLocked_locked (hconfig.1.trans hs) _, ?_, rfl⟩
  calc (t.setF rd (montmul (t.getF rd) (t.bank ctx).r2 (t.bank ctx))).getF rd
      = montmul (t.getF rd) (t.bank ctx).r2 (t.bank ctx) := State.getF_setF_same t rd _
    _ = montOne (s.bank ctx) := by rw [hone, hconfig.bank_eq]; rfl

/-- FNEG leaves the negative of a canonical value: MODSUB reads the 0 that SUB wrote to `rd`, and the operand that SUB
kept. -/
theorem exec_fneg (hs : s.locked = true) (hne : rd ≠ ra) (hcan : Canonical (s.bank ctx) (s.getF ra)) :
    ∃ t u, exec (.sub rd ra ra) s = .next t ∧ exec (.modsub rd rd ra ctx) t = .next u ∧ u.bw = false ∧ u.err = .ok ∧
      (u.getF rd).toNat = ((s.bank ctx).m.toNat - (s.getF ra).toNat) % (s.bank ctx).m.toNat := by
  obtain ⟨t, ht⟩ := exists_next_exec (.sub rd ra ra) s
  obtain ⟨hdiff, hborrow, -, hkept⟩ := result_of_exec_sub ht
  have hconfig := exec_sameConfig hs ht
  have hcan0 : Canonical (s.bank ctx) 0#256 := Nat.zero_lt_of_lt hcan
  refine ⟨t, _, ht, whenLocked_locked (hconfig.1.trans hs) _, ?_, rfl, ?_⟩
  · exact hborrow.trans (decide_eq_false (lt_irrefl _))
  · calc ((t.setF rd (fsub (t.getF rd) (t.getF ra) (t.bank ctx))).getF rd).toNat
        = (fsub 0#256 (s.getF ra) (s.bank ctx)).toNat := by
          rw [State.getF_setF_same, hdiff, hkept ra hne.symm, hconfig.bank_eq, BitVec.sub_self]
      _ = ((s.bank ctx).m.toNat - (s.getF ra).toNat) % (s.bank ctx).m.toNat := by
          rw [fsub_spec hcan0 hcan, BitVec.toNat_zero, Nat.zero_add]

end

/-- Settles O32: MOV and CLR by evaluation, SETONE and FNEG by what the second command reads of the first. -/
theorem pseudoInstructionsExpand : Obligations.PseudoInstructionsExpand :=
  ⟨fun _ _ _ => rfl, fun _ _ => rfl, fun _ _ _ hs => exec_setone hs,
    fun _ _ _ _ hs hne hcan => exec_fneg hs hne hcan⟩

end Sys2Proof.Machine

/-! # Proofs of the family of the basic commands (spec/40_field_basic.md)

The plan: the words of a command decode by `decodeOfEncode`, and its next state is `exec`'s by evaluation, so what is
left of each statement is one fact about 256-bit words: `sub_eq_ofNat` for SUB, `isZeroElem_eq` and `equalElems_eq` for
the tests, `State.f_set_getF` for a CMOV that copies nothing. That ADD, SUB and CMOV GE reproduce MODADD rests on GE
after ADD and SUB (`conditionTable`) and on the two cases of `fadd` (`fadd_of_le`, `fadd_of_lt`). -/

namespace Sys2Proof

/-! ### The words of CMOV (R96, R97) -/

section

variable (rd ra : Reg) (code : BitVec 4)

/-- CMOV's unused fields, `rb`, `ctx` and the low seven bits, are zero in its words, whatever the condition code. -/
theorem formR_cmov_and_zeros : formR 0x04 rd ra 0 code 0 &&& 0x0000F0FF = 0 := by
  calc formR 0x04 rd ra 0 code 0 &&& 0x0000F0FF
      = (0x04#8 ++ BitVec.ofFin (w := 4) rd ++ BitVec.ofFin (w := 4) ra ++ 0#4 ++ code ++ 0#1 ++ 0#7) &&&
          (0#8 ++ 0#4 ++ 0#4 ++ BitVec.allOnes 4 ++ 0#4 ++ BitVec.allOnes 1 ++ BitVec.allOnes 7) := rfl
    _ = 0#8 ++ 0#4 ++ 0#4 ++ 0#4 ++ 0#4 ++ 0#1 ++ 0#7 := by
        simp only [BitVec.and_append, BitVec.and_zero, BitVec.and_allOnes]
    _ = 0 := rfl

/-- A word of CMOV decodes as its condition code says. -/
theorem decode_formR_cmov : decode (formR 0x04 rd ra 0 code 0) = withCond rd ra code := by
  simp only [decode, opField_formR, rdField_formR, raField_formR, condField_formR]
  exact withZeros_zero (formR_cmov_and_zeros rd ra code) _

theorem withCond_of_reserved (h : 10 ≤ code.toNat) : withCond rd ra code = .error .reservedCondition := by
  obtain ⟨-, hnone, -⟩ := Machine.conditionTable
  rw [withCond, hnone code h]

end

end Sys2Proof

namespace Sys2Proof.Machine

open Sys2Proof

/-! ### The values of the basic commands as numbers (R121 to R127) -/

theorem immValue_eq_ofNat (imm16 : BitVec 16) : immValue imm16 = BitVec.ofNat 256 imm16.toNat :=
  (BitVec.ofNat_toNat 256 imm16).symm

/-- The wrapped difference, with the radix added when the minuend is below the subtrahend. -/
theorem sub_eq_ofNat (a b : Elem) :
    a - b = BitVec.ofNat 256 (if b.toNat ≤ a.toNat then a.toNat - b.toNat else a.toNat + 2 ^ 256 - b.toNat) := by
  have ha := a.isLt
  have hb := b.isLt
  apply BitVec.eq_of_toNat_eq
  rw [BitVec.toNat_sub, BitVec.toNat_ofNat]
  split <;> omega

theorem isZeroElem_eq (a : Elem) : isZeroElem a = decide (a.toNat = 0) := decide_eq_decide.mpr BitVec.toNat_eq

theorem equalElems_eq (a b : Elem) : equalElems a b = decide (a.toNat = b.toNat) := decide_eq_decide.mpr BitVec.toNat_eq

/-- Writing back what a register holds changes no register. -/
theorem State.f_set_getF (s : State) (r : Reg) : s.f.set r.val (s.getF r) = s.f := Vector.set_getElem_self r.isLt

/-! ### `fadd` on wrapped words (R125, R150) -/

section

variable {x y : Elem} {c : Bank}

theorem fadd_of_le (h : c.m.toNat ≤ x.toNat + y.toNat) : fadd x y c = x + y - c.m := by
  have hm := c.m.isLt
  apply BitVec.eq_of_toNat_eq
  simp only [fadd, if_pos h, BitVec.toNat_ofNat, BitVec.toNat_sub, BitVec.toNat_add]
  omega

theorem fadd_of_lt (h : x.toNat + y.toNat < c.m.toNat) : fadd x y c = x + y := by
  simp only [fadd, if_neg (Nat.not_le.mpr h), BitVec.add_def]

end

/-- What CMOV leaves in its destination (R124). -/
theorem getF_of_exec_cmov {s t : State} {rd ra : Reg} {cond : Cond} (h : exec (.cmov rd ra cond) s = .next t) :
    t.getF rd = if condHolds cond s then s.getF ra else s.getF rd := by
  obtain rfl := Host.Outcome.next.inj h
  exact State.getF_setF_same s rd _

/-- Settles O17: GE holds after ADD and SUB when the 257-bit sum is at least the modulus, which is the test of `fadd`;
CMOV then takes the difference, and otherwise leaves the sum. -/
theorem addSubCmovReproduceModadd : Obligations.AddSubCmovReproduceModadd := by
  intro s rd ra rb ru rm c hrm hru hmod
  obtain ⟨t, ht⟩ := exists_next_exec (.add rd ra rb) s
  obtain ⟨u, hu⟩ := exists_next_exec (.sub ru rd rm) t
  obtain ⟨v, hv⟩ := exists_next_exec (.cmov rd ru .ge) u
  refine ⟨t, u, v, ht, hu, hv, ?_⟩
  obtain ⟨hsum, -, hkept⟩ := result_of_exec_add ht
  obtain ⟨hdiff, -, -, hsumKept⟩ := result_of_exec_sub hu
  obtain ⟨-, -, hcond⟩ := conditionTable
  have hge : condHolds .ge u = true ↔ (s.bank c).m.toNat ≤ (s.getF ra).toNat + (s.getF rb).toNat :=
    hmod ▸ hcond s t u rd ra rb ru rm hrm ht hu
  rw [getF_of_exec_cmov hv]
  by_cases hle : (s.bank c).m.toNat ≤ (s.getF ra).toNat + (s.getF rb).toNat
  · rw [if_pos (hge.mpr hle), fadd_of_le hle, hdiff, hsum, hkept rm hrm, hmod]
  · rw [if_neg (mt hge.mp hle), fadd_of_lt (Nat.not_le.mp hle), hsumKept rd hru.symm, hsum]

/-! ### The whole next state of each basic command -/

/-- Settles O10: SETSMALL's register value is the number of the immediate. -/
theorem setsmallWritesImmediate : Obligations.SetsmallWritesImmediate := by
  intro rd imm16 s
  refine ⟨decodeOfEncode (.setsmall rd imm16) rfl, ?_⟩
  rw [← immValue_eq_ofNat]
  rfl

/-- Settles O11: the addition of words wraps at the radix. -/
theorem addWritesSumAndCarry : Obligations.AddWritesSumAndCarry := by
  intro rd ra rb s
  refine ⟨decodeOfEncode (.add rd ra rb) rfl, ?_⟩
  rw [← BitVec.add_def]
  rfl

/-- Settles O12: the subtraction of words wraps at the radix. -/
theorem subWritesDifferenceAndBorrow : Obligations.SubWritesDifferenceAndBorrow := by
  intro rd ra rb s
  refine ⟨decodeOfEncode (.sub rd ra rb) rfl, ?_⟩
  rw [← sub_eq_ofNat]
  rfl

/-- CMOV's whole next state (R124): a condition that fails writes the destination back as it was. -/
theorem exec_cmov (rd ra : Reg) (cond : Cond) (s : State) :
    exec (.cmov rd ra cond) s = .next { s with
      f := if condHolds cond s = true then s.f.set rd.val (s.getF ra) else s.f
      err := .ok } := by
  have hf : s.f.set rd.val (if condHolds cond s then s.getF ra else s.getF rd) =
      if condHolds cond s = true then s.f.set rd.val (s.getF ra) else s.f := by
    split
    · rfl
    · exact s.f_set_getF rd
  rw [← hf]
  rfl

/-- Settles O13: the next state by the two cases of the condition, the reserved codes by the decoder's own check. -/
theorem cmovCopiesOnCondition : Obligations.CmovCopiesOnCondition :=
  ⟨fun rd ra cond s => ⟨decodeOfEncode (.cmov rd ra cond) rfl, exec_cmov rd ra cond s⟩,
    fun rd ra code h => (decode_formR_cmov rd ra code).trans (withCond_of_reserved rd ra code h)⟩

/-- Settles O15: a word is zero when its number is. -/
theorem iszeroWritesT : Obligations.IszeroWritesT := by
  intro ra s
  refine ⟨decodeOfEncode (.iszero ra) rfl, ?_⟩
  rw [← isZeroElem_eq]
  rfl

/-- Settles O16: words are equal when their numbers are. -/
theorem eqWritesT : Obligations.EqWritesT := by
  intro ra rb s
  refine ⟨decodeOfEncode (.eq ra rb) rfl, ?_⟩
  rw [← equalElems_eq]
  rfl

end Sys2Proof.Machine

/-! # Proofs of the family of the modular and Montgomery commands (spec/41_field_montgomery.md)

The plan: the words of a command decode by `decodeOfEncode`, a context command that is not locked is turned away by
`exec_of_unlocked`, and a locked one has its equation `exec_…_of_locked`; all but TOBYTES complete with one register
written, and `exists_next_of_complete_setF` says once what the commands after them find. What is left of each statement
is about the field functions: the two conversions are `montmul_r2` and `montmul_one_natCast`, inverse to each other on
canonical values, and `one(c)` is `montForm c 1`. The loops of R142 and R154 are read off the recursions of `montAcc`
and `finvLoop`, the latter through `finvAcc`, the accumulator counted upwards. -/

namespace Sys2Proof.Machine

open Sys2Proof Sys2Proof.Spec

/-! ### The integer of the byte buffer (R12, R140) -/

theorem beNat_ofFn {n : Nat} (g : Fin n → Byte) :
    beNat (List.ofFn g) = ∑ k, (g k).toNat * 256 ^ (n - 1 - k.val) := by
  induction n with
  | zero => rfl
  | succ n ih =>
    have hshift (k : Fin n) : 256 ^ (n - k.val) = 256 ^ (n - 1 - k.val) * 256 := by
      rw [← pow_succ]
      congr 1
      omega
    rw [List.ofFn_succ', List.concat_eq_append, beNat_append, ih, Fin.sum_univ_castSucc, Finset.sum_mul]
    simp [hshift, mul_assoc]

/-- `BE32(DBUF)` as the sum of its bytes' weights (R12). -/
theorem be32_toNat_eq_sum (d : Vector Byte 32) :
    (be32 d).toNat = ∑ k : Fin 32, (d[k.val]).toNat * 256 ^ (31 - k.val) := by
  have hlist : d.toList = List.ofFn fun k : Fin 32 => d[k.val] := by
    rw [← Vector.toList_ofFn, Vector.ofFn_getElem]
  rw [be32_toNat, hlist, beNat_ofFn]

/-! ### The digit loop (R142) -/

/-- The digit `u` of one iteration of `montmul`'s loop (R142). -/
def montDigit (x y m' A i : Nat) : Nat := (A % 2 ^ 32 + x / 2 ^ (32 * i) % 2 ^ 32 * (y % 2 ^ 32)) * m' % 2 ^ 32

theorem montStep_eq (x y m m' A i : Nat) :
    montStep x y m m' A i = (A + x / 2 ^ (32 * i) % 2 ^ 32 * y + montDigit x y m' A i * m) / 2 ^ 32 := by
  simp only [montDigit, pow_mul]
  rfl

theorem limb_zero_toNat (v : Elem) : (limb v 0).toNat = v.toNat % 2 ^ 32 := by simp [limb_toNat]

/-- Settles O20: the accumulator after `i` iterations is `montAcc … i`. -/
theorem montmulFollowsDigitLoop : Obligations.MontmulFollowsDigitLoop := by
  intro x y c
  refine ⟨fun i => montAcc x.toNat y.toNat c.m.toNat c.m0inv.toNat i,
    fun i => montDigit x.toNat y.toNat c.m0inv.toNat (montAcc x.toNat y.toNat c.m.toNat c.m0inv.toNat i) i,
    rfl, fun i => ?_, montmul_toNat x y c⟩
  simp only [limb_zero_toNat, limb_toNat x i]
  refine ⟨rfl, ?_, fun ⟨_, _, _, hm⟩ => montStep_exact hm, ?_⟩
  · rw [montAcc_succ, montStep_eq]
  · simpa [BitVec.toNat_eq] using montAcc_bound x.toNat y.toNat c.m.toNat c.m0inv.toNat (i.val + 1)

/-! ### The values of `montmul` in contract (R145 to R148) -/

section

variable {c : Bank} {x : Elem}

theorem Bank.Valid.canonical_one (hc : c.Valid) : Canonical c 1 := by
  obtain ⟨-, h3, -⟩ := hc
  exact Nat.lt_of_lt_of_le (by decide) h3

/-- `montmul` in contract as a number: the product up to the radix, modulo `m` (R145). -/
theorem montmul_mul_radix_mod {y : Elem} (hc : c.Valid) (h : x.toNat * y.toNat < c.m.toNat * 2 ^ 256) :
    (montmul x y c).toNat * 2 ^ 256 % c.m.toNat = x.toNat * y.toNat % c.m.toNat := by
  obtain ⟨-, e⟩ := montmul_spec hc h
  rw [← ZMod.natCast_eq_natCast_iff']
  exact_mod_cast e

theorem stdVal_r2 (hc : c.Valid) : stdVal c.m.toNat c.r2 = 2 ^ 256 := by
  have hradix := radix_mul_inv hc
  obtain ⟨-, -, hr2, -⟩ := hc
  rw [stdVal, hr2, ZMod.natCast_mod, show 512 = 256 + 256 from rfl, pow_add, Nat.cast_mul, Nat.cast_pow, Nat.cast_ofNat,
    mul_assoc, hradix, mul_one]

/-- The product with `R2` converts any value to its Montgomery form (R147). -/
theorem montmul_r2 (hc : c.Valid) (x : Elem) : montmul x c.r2 c = montForm c x.toNat := by
  obtain ⟨h, e⟩ := montmul_std (x := x) hc hc.canonical_r2
  exact eq_montForm hc h (by rw [e, stdVal_r2 hc, stdVal_mul_radix hc])

theorem montmul_r2_toNat (hc : c.Valid) (x : Elem) :
    (montmul x c.r2 c).toNat = x.toNat * 2 ^ 256 % c.m.toNat := by
  rw [montmul_r2 hc, montForm_toNat hc]

/-- The product with 1 leaves the standard-domain value (R148). -/
theorem montmul_one_natCast (hc : c.Valid) (x : Elem) :
    ((montmul x 1 c).toNat : ZMod c.m.toNat) = stdVal c.m.toNat x := by
  obtain ⟨-, e⟩ := montmul_std (x := x) hc hc.canonical_one
  have hone := stdVal_mul_radix hc 1
  rw [← stdVal_mul_radix hc, e, mul_assoc, hone]
  simp

/-- Converting back a converted value (R148). -/
theorem montmul_one_montmul_r2 (hc : c.Valid) (hx : Canonical c x) : montmul (montmul x c.r2 c) 1 c = x := by
  apply BitVec.eq_of_toNat_eq
  rw [montmul_r2 hc, montmul_montForm_standard hc]
  simpa using Nat.mod_eq_of_lt hx

/-- Converting a value that was converted back (R148). -/
theorem montmul_r2_montmul_one (hc : c.Valid) (hx : Canonical c x) : montmul (montmul x 1 c) c.r2 c = x := by
  rw [montmul_r2 hc]
  exact (eq_montForm hc hx (montmul_one_natCast hc x).symm).symm

/-- `one(c) = [1]` (R146). -/
theorem montOne_eq_montForm (hc : c.Valid) : montOne c = montForm c 1 := by
  obtain ⟨h, e⟩ := montOne_std hc
  exact eq_montForm hc h (by rw [e, Nat.cast_one])

theorem montmul_montOne (hc : c.Valid) (hx : Canonical c x) : montmul x (montOne c) c = x := by
  obtain ⟨hone, eone⟩ := montOne_std hc
  obtain ⟨h, e⟩ := montmul_std (x := x) hc hone
  exact stdVal_inj hc h hx (by rw [e, eone, mul_one])

theorem montmul_montOne_one (hc : c.Valid) : montmul (montOne c) 1 c = 1 := by
  rw [montOne]
  exact montmul_one_montmul_r2 hc hc.canonical_one

/-- The inverse of a non-zero canonical element (R155). -/
theorem montmul_finv (hc : c.Valid) (hp : c.m.toNat.Prime) (hx : Canonical c x) (h0 : x ≠ 0) :
    montmul x (finv x c) c = montOne c := by
  have : Fact c.m.toNat.Prime := ⟨hp⟩
  obtain ⟨hi, ei⟩ := finv_prime hc hp hx
  obtain ⟨hone, eone⟩ := montOne_std hc
  obtain ⟨h, e⟩ := montmul_std (x := x) hc hi
  exact stdVal_inj hc h hone (by rw [e, ei, eone, mul_inv_cancel₀ (mt (stdVal_eq_zero hc hx).mp h0)])

/-- `[x]` is not 0 when `x` has an inverse. -/
theorem montForm_ne_zero {x y : Nat} (hc : c.Valid) (h : x * y % c.m.toNat = 1) : montForm c x ≠ 0 := by
  intro h0
  have hx : (x : ZMod c.m.toNat) = 0 := by
    rw [← (montForm_std (x := x) hc).2, h0, stdVal_zero]
  have hdvd : c.m.toNat ∣ x * y := Dvd.dvd.mul_right ((ZMod.natCast_eq_zero_iff _ _).mp hx) y
  rw [Nat.mod_eq_zero_of_dvd hdvd] at h
  cases h

end

/-! ### The commands admitted (R102, R139) -/

section

variable {s : State} (rd ra rb : Reg) (ctx : Ctx) (hs : s.locked = true)
include hs

theorem exec_tobytes_of_locked : exec (.tobytes ra ctx) s =
    complete { s with dbuf := toBe32 (montmul (s.getF ra) 1 (s.bank ctx)) } := whenLocked_locked hs _

theorem exec_montmul_of_locked : exec (.montmul rd ra rb ctx) s =
    complete (s.setF rd (montmul (s.getF ra) (s.getF rb) (s.bank ctx))) := whenLocked_locked hs _

theorem exec_tomont_of_locked : exec (.tomont rd ra ctx) s =
    complete (s.setF rd (montmul (s.getF ra) (s.bank ctx).r2 (s.bank ctx))) := whenLocked_locked hs _

theorem exec_frommont_of_locked : exec (.frommont rd ra ctx) s =
    complete (s.setF rd (montmul (s.getF ra) 1 (s.bank ctx))) := whenLocked_locked hs _

theorem exec_modadd_of_locked : exec (.modadd rd ra rb ctx) s =
    complete (s.setF rd (fadd (s.getF ra) (s.getF rb) (s.bank ctx))) := whenLocked_locked hs _

theorem exec_modsub_of_locked : exec (.modsub rd ra rb ctx) s =
    complete (s.setF rd (fsub (s.getF ra) (s.getF rb) (s.bank ctx))) := whenLocked_locked hs _

end

section

variable {s : State} {rd ra : Reg} {ctx : Ctx}

/-- What a command that completes with one register written leaves for the commands after it: the
value, the other registers, and the configuration. -/
theorem exists_next_of_complete_setF {run : Host.Outcome State Fault Refusal} {v : Elem}
    (h : run = complete (s.setF rd v)) :
    ∃ t, run = .next t ∧ t.getF rd = v ∧ t.err = .ok ∧ t.SameConfig s ∧ ∀ q, q ≠ rd → t.getF q = s.getF q :=
  ⟨_, h, State.getF_setF_same s rd v, rfl, ⟨rfl, rfl, rfl, rfl⟩, fun _ hq => State.getF_setF_other s v hq⟩

theorem exec_finv_of_ne_zero (hs : s.locked = true) (h0 : s.getF ra ≠ 0) :
    exec (.finv rd ra ctx) s = complete (s.setF rd (finv (s.getF ra) (s.bank ctx))) :=
  (exec_finv_of_locked rd ra ctx hs).trans (if_neg (mt of_decide_eq_true h0))

theorem exec_finv_of_zero (hs : s.locked = true) (h0 : s.getF ra = 0) :
    exec (.finv rd ra ctx) s = failWith .curveOperationFailure (s.setF rd 0) :=
  (exec_finv_of_locked rd ra ctx hs).trans (if_pos (decide_eq_true h0))

theorem exec_frombytes_of_lt (hs : s.locked = true) (h : (be32 s.dbuf).toNat < (s.bank ctx).m.toNat) :
    exec (.frombytes rd ctx) s = complete (s.setF rd (montmul (be32 s.dbuf) (s.bank ctx).r2 (s.bank ctx))) :=
  (exec_frombytes_of_locked rd ctx hs).trans (if_neg (Nat.not_le.mpr h))

theorem exec_frombytes_of_le (hs : s.locked = true) (h : (s.bank ctx).m.toNat ≤ (be32 s.dbuf).toNat) :
    exec (.frombytes rd ctx) s = failWith .outOfRange s :=
  (exec_frombytes_of_locked rd ctx hs).trans (if_pos h)

end

/-! ### The byte buffer and the registers (R140, R141) -/

/-- Settles O18: the hypothesis on `v` says that it is the integer of the buffer. -/
theorem frombytesChecksAndConverts : Obligations.FrombytesChecksAndConverts := by
  intro rd ctx s v hv
  obtain rfl : v = be32 s.dbuf := BitVec.eq_of_toNat_eq (hv.trans (be32_toNat_eq_sum s.dbuf).symm)
  exact ⟨decodeOfEncode (.frombytes rd ctx) rfl, fun hs hlt => exec_frombytes_of_lt hs hlt,
    fun hc => montmul_r2_toNat hc _, fun hs hle => exec_frombytes_of_le hs hle, exec_of_unlocked rfl rfl⟩

/-- Settles O19: the buffer is written with `toBe32` of the converted value. -/
theorem tobytesWritesBuffer : Obligations.TobytesWritesBuffer :=
  fun ra ctx _ => ⟨decodeOfEncode (.tobytes ra ctx) rfl,
    fun hs => ⟨_, exec_tobytes_of_locked ra ctx hs, fun k => toBe32_getElem _ k.val k.isLt⟩, exec_of_unlocked rfl rfl⟩

/-- Settles O26: TOBYTES converts back what FROMBYTES converted, and writes out the integer it read. -/
theorem importExportRoundTrip : Obligations.ImportExportRoundTrip := by
  intro r ctx s hs hc hlt
  obtain ⟨t, ht, hval, -, hconfig, -⟩ := exists_next_of_complete_setF (exec_frombytes_of_lt (rd := r) hs hlt)
  refine ⟨t, _, ht, exec_tobytes_of_locked r ctx (hconfig.1.trans hs), ?_, rfl⟩
  calc toBe32 (montmul (t.getF r) 1 (t.bank ctx))
      = toBe32 (be32 s.dbuf) := by rw [hval, hconfig.bank_eq, montmul_one_montmul_r2 hc hlt]
    _ = s.dbuf := toBe32_be32 s.dbuf

/-! ### MONTMUL, TOMONT, FROMMONT (R143, R145, R147, R148) -/

/-- Settles O21: the zero factor by the two cases of which factor it is. -/
theorem montmulWritesProduct : Obligations.MontmulWritesProduct := by
  intro rd ra rb ctx s
  refine ⟨decodeOfEncode (.montmul rd ra rb ctx) rfl, exec_montmul_of_locked rd ra rb ctx, ?_,
    fun hc hx => montmul_montOne hc hx, exec_of_unlocked rfl rfl⟩
  rintro (h | h)
  · rw [h, montmul_zero_left]
  · rw [h, montmul_zero_right]

/-- Settles O22: `montmul_spec`, with the congruence as one of numbers. -/
theorem montmulInContract : Obligations.MontmulInContract := by
  intro rd ra rb ctx s hs hc h
  obtain ⟨t, ht, hval, -⟩ :=
    exists_next_of_complete_setF (exec_montmul_of_locked rd ra rb ctx hs)
  obtain ⟨hcan, -⟩ := montmul_spec hc h
  rw [← montmul_mul_radix_mod hc h, ← hval]
  exact ⟨t, ht, hval ▸ hcan, rfl⟩

/-- Settles O23: `montmul_r2` gives the value. -/
theorem tomontWritesMontgomeryForm : Obligations.TomontWritesMontgomeryForm :=
  fun rd ra ctx _ => ⟨decodeOfEncode (.tomont rd ra ctx) rfl, exec_tomont_of_locked rd ra ctx,
    fun hc => montmul_r2_toNat hc _, exec_of_unlocked rfl rfl⟩

/-- Settles O24: the factor 1 keeps every source in contract. -/
theorem frommontWritesStandardForm : Obligations.FrommontWritesStandardForm := by
  intro rd ra ctx s
  refine ⟨decodeOfEncode (.frommont rd ra ctx) rfl, exec_frommont_of_locked rd ra ctx, fun hc => ?_,
    exec_of_unlocked rfl rfl⟩
  have hx : (s.getF ra).toNat * (1 : Elem).toNat < (s.bank ctx).m.toNat * 2 ^ 256 :=
    mul_comm (s.bank ctx).m.toNat _ ▸ Nat.mul_lt_mul'' (s.getF ra).isLt hc.canonical_one
  obtain ⟨hcan, -⟩ := montmul_spec hc hx
  refine ⟨hcan, ?_, montmul_montOne_one hc⟩
  rw [montmul_mul_radix_mod hc hx, show (1 : Elem).toNat = 1 from rfl, mul_one]

/-! ### MODADD and MODSUB (R150 to R153) -/

/-- Settles O27: `fadd_spec` in contract. -/
theorem modaddWritesModularSum : Obligations.ModaddWritesModularSum := by
  intro rd ra rb ctx s
  refine ⟨decodeOfEncode (.modadd rd ra rb ctx) rfl, exec_modadd_of_locked rd ra rb ctx, rfl, fun hs hx hy => ?_,
    exec_of_unlocked rfl rfl⟩
  obtain ⟨t, ht, hval, -⟩ :=
    exists_next_of_complete_setF (exec_modadd_of_locked rd ra rb ctx hs)
  exact ⟨t, ht, hval ▸ fadd_spec hx hy⟩

/-- Settles O28: adding the subtrahend to the difference of `fsub_spec` gives the minuend back. -/
theorem modsubWritesModularDifference : Obligations.ModsubWritesModularDifference := by
  intro rd ra rb ctx s
  refine ⟨decodeOfEncode (.modsub rd ra rb ctx) rfl, exec_modsub_of_locked rd ra rb ctx, rfl, fun hs hx hy => ?_,
    exec_of_unlocked rfl rfl⟩
  obtain ⟨t, ht, hval, -⟩ :=
    exists_next_of_complete_setF (exec_modsub_of_locked rd ra rb ctx hs)
  refine ⟨t, ht, ?_⟩
  obtain ⟨hcan, -⟩ := fsub_std hx hy
  rw [hval]
  refine ⟨hcan, ?_⟩
  calc ((fsub (s.getF ra) (s.getF rb) (s.bank ctx)).toNat + (s.getF rb).toNat) % (s.bank ctx).m.toNat
      = ((s.getF ra).toNat + (s.bank ctx).m.toNat) % (s.bank ctx).m.toNat := by
        rw [fsub_spec hx hy, Nat.mod_add_mod, add_assoc, Nat.sub_add_cancel (Nat.le_of_lt hy)]
    _ = (s.getF ra).toNat := by rw [Nat.add_mod_right, Nat.mod_eq_of_lt hx]

/-! ### FINV (R154, R155, R214) -/

section

variable (x : Elem) (c : Bank)

/-- One iteration of `finv`'s loop, for one exponent bit (R154). -/
def finvRound (bit : Bool) (r : Elem) : Elem := if bit = true then montmul (montmul r r c) x c else montmul r r c

theorem finvLoop_succ (e : Elem) (i : Nat) (r : Elem) :
    finvLoop x c e (i + 1) r = finvLoop x c e i (finvRound x c (e.getLsbD i) r) := rfl

/-- `finv`'s accumulator after `j` iterations, the most significant bits first (R154). -/
def finvAcc : Nat → Elem
  | 0 => montOne c
  | j + 1 => finvRound x c ((c.m - 2).getLsbD (255 - j)) (finvAcc j)

/-- The iterations that remain after `j` of them end in `finv`. -/
theorem finvLoop_finvAcc {j : Nat} (hj : j ≤ 256) : finvLoop x c (c.m - 2) (256 - j) (finvAcc x c j) = finv x c := by
  induction j with
  | zero => rfl
  | succ j ih =>
    have hbits : 256 - j = 255 - j + 1 := by omega
    rw [← ih (by omega), hbits, finvLoop_succ, finvAcc, Nat.succ_sub_succ]

end

/-- Settles O29: `finvAcc` is the accumulator, and no iteration remains after 256. -/
theorem finvFollowsSchedule : Obligations.FinvFollowsSchedule :=
  fun x c => ⟨finvAcc x c, rfl, fun _ _ => rfl, (finvLoop_finvAcc x c le_rfl).symm⟩

/-- Settles O30: the two cases of the test for zero. -/
theorem finvWritesAndReportsZero : Obligations.FinvWritesAndReportsZero :=
  fun rd ra ctx _ => ⟨decodeOfEncode (.finv rd ra ctx) rfl, fun hs h0 => exec_finv_of_ne_zero hs h0,
    fun hs h0 => exec_finv_of_zero hs h0, finv_zero_operand, exec_of_unlocked rfl rfl⟩

/-- Settles O31: MONTMUL reads the inverse that FINV wrote and, where `rd ≠ ra`, the operand that FINV kept. -/
theorem finvInvertsInContract : Obligations.FinvInvertsInContract := by
  intro rd ra re ctx s hs hc hp hx h0
  obtain ⟨t, ht, hval, herr, hconfig, hkept⟩ := exists_next_of_complete_setF (exec_finv_of_ne_zero (rd := rd) hs h0)
  have hinv := montmul_finv hc hp hx h0
  obtain ⟨hcan, -⟩ := finv_prime hc hp hx
  refine ⟨t, ht, herr, hval ▸ hcan, hval ▸ hinv, ?_, fun hne => ?_⟩
  · rw [montmul_r2_toNat hc, show (1 : Elem).toNat = 1 from rfl, one_mul]
  · obtain ⟨u, hu, hprod, -⟩ := exists_next_of_complete_setF
      (exec_montmul_of_locked re ra rd ctx (hconfig.1.trans hs))
    exact ⟨u, hu, by rw [hprod, hval, hkept ra hne.symm, hconfig.bank_eq]; exact hinv⟩

/-! ### The domain algebra on the commands (R148, R149) -/

section

variable {s : State} {rd ra rb re : Reg} {ctx : Ctx}

/-- FROMMONT undoes TOMONT. -/
theorem frommont_after_tomont (hs : s.locked = true) (hc : (s.bank ctx).Valid)
    (hx : Canonical (s.bank ctx) (s.getF ra)) :
    ∃ t u, exec (.tomont rd ra ctx) s = .next t ∧ exec (.frommont re rd ctx) t = .next u ∧
      u.getF re = s.getF ra := by
  obtain ⟨t, ht, hval, -, hconfig, -⟩ :=
    exists_next_of_complete_setF (exec_tomont_of_locked rd ra ctx hs)
  obtain ⟨u, hu, hback, -⟩ := exists_next_of_complete_setF
    (exec_frommont_of_locked re rd ctx (hconfig.1.trans hs))
  exact ⟨t, u, ht, hu, by rw [hback, hval, hconfig.bank_eq, montmul_one_montmul_r2 hc hx]⟩

/-- TOMONT undoes FROMMONT. -/
theorem tomont_after_frommont (hs : s.locked = true) (hc : (s.bank ctx).Valid)
    (hx : Canonical (s.bank ctx) (s.getF ra)) :
    ∃ t u, exec (.frommont rd ra ctx) s = .next t ∧ exec (.tomont re rd ctx) t = .next u ∧
      u.getF re = s.getF ra := by
  obtain ⟨t, ht, hval, -, hconfig, -⟩ :=
    exists_next_of_complete_setF (exec_frommont_of_locked rd ra ctx hs)
  obtain ⟨u, hu, hback, -⟩ := exists_next_of_complete_setF
    (exec_tomont_of_locked re rd ctx (hconfig.1.trans hs))
  exact ⟨t, u, ht, hu, by rw [hback, hval, hconfig.bank_eq, montmul_r2_montmul_one hc hx]⟩

/-- The commands on Montgomery forms: MONTMUL, MODADD and MODSUB. -/
theorem exec_of_montForm {x y : Nat} (hs : s.locked = true) (hc : (s.bank ctx).Valid) (hy : y < (s.bank ctx).m.toNat)
    (hra : s.getF ra = montForm (s.bank ctx) x) (hrb : s.getF rb = montForm (s.bank ctx) y) :
    (∃ t, exec (.montmul rd ra rb ctx) s = .next t ∧
      t.getF rd = montForm (s.bank ctx) (x * y % (s.bank ctx).m.toNat)) ∧
    (∃ t, exec (.modadd rd ra rb ctx) s = .next t ∧
      t.getF rd = montForm (s.bank ctx) ((x + y) % (s.bank ctx).m.toNat)) ∧
    ∃ t, exec (.modsub rd ra rb ctx) s = .next t ∧
      t.getF rd = montForm (s.bank ctx) ((x + ((s.bank ctx).m.toNat - y)) % (s.bank ctx).m.toNat) := by
  obtain ⟨t, ht, hprod, -⟩ :=
    exists_next_of_complete_setF (exec_montmul_of_locked rd ra rb ctx hs)
  obtain ⟨u, hu, hsum, -⟩ :=
    exists_next_of_complete_setF (exec_modadd_of_locked rd ra rb ctx hs)
  obtain ⟨v, hv, hdiff, -⟩ :=
    exists_next_of_complete_setF (exec_modsub_of_locked rd ra rb ctx hs)
  rw [hra, hrb] at hprod hsum hdiff
  exact ⟨⟨t, ht, hprod.trans (montmul_montForm hc)⟩, ⟨u, hu, hsum.trans (fadd_montForm hc)⟩,
    ⟨v, hv, hdiff.trans (fsub_montForm hc hy)⟩⟩

end

/-- Settles O25: the round trips by the two conversions, the algebra by the laws of `montForm`. -/
theorem domainConversionsAndAlgebra : Obligations.DomainConversionsAndAlgebra := by
  rintro rd ra rb re ctx s _ rfl hs hc
  refine ⟨fun hx => ⟨frommont_after_tomont hs hc hx, tomont_after_frommont hs hc hx⟩, fun x y _ hy hra => ?_,
    fun _ _ => montForm_toNat hc, montForm_zero _⟩
  refine ⟨exec_of_montForm hs hc hy hra, fun hrb => ?_, fun hp hxy => ?_⟩
  · obtain ⟨t, ht, hval, -⟩ :=
      exists_next_of_complete_setF (exec_montmul_of_locked rd ra rb ctx hs)
    exact ⟨t, ht, by rw [hval, hra, montmul_montForm_standard hc, hrb]⟩
  · have h0 : s.getF ra ≠ 0 := hra ▸ montForm_ne_zero hc hxy
    obtain ⟨t, ht, hval, herr, -⟩ := exists_next_of_complete_setF (exec_finv_of_ne_zero (rd := rd) hs h0)
    exact ⟨t, ht, herr, by rw [hval, hra, finv_montForm hc hp hxy]⟩

end Sys2Proof.Machine

/-! # Proofs of the family of the curve commands (spec/42_curve.md)

The plan: a curve command in bounds decodes, is turned away while unlocked, and completes with its effect while locked;
out of bounds, or with `ctx = 1`, its word is illegal (`illegal_of_not_wf`, `decode_curve_ctx_one`). `pdbl`, `padd` and
`toaff` are their rules' steps, in every bank. In contract the registers represent the point that the group law gives
(`pdbl_rep`, `padd_rep`, `toaff_rep`, `smul_rep`), and registers determine the point they represent. The ladder of R181 is
read off the recursion of `smulLoop` through `smulAcc`, the accumulator counted upwards; an accumulator that is infinity
stays infinity while nothing but infinity is added, which gives the corner cases of R182 in every bank. -/

namespace Sys2Proof.Machine

open Sys2Proof Sys2Proof.Spec Sys2Proof.Laws

/-! ### The bounds of the register groups (R98, R100) -/

section

variable (rd ra rb : Reg)

theorem wf_pdbl_iff : (Instr.pdbl rd ra).wf = true ↔ rd.val ≤ 13 ∧ ra.val ≤ 13 := by
  simp only [Instr.wf, Bool.and_eq_true, Reg.tripleBase_iff]

theorem wf_padd_iff : (Instr.padd rd ra rb).wf = true ↔ rd.val ≤ 13 ∧ ra.val ≤ 13 ∧ rb.val ≤ 13 := by
  simp only [Instr.wf, Bool.and_eq_true, Reg.tripleBase_iff, and_assoc]

theorem wf_toaffine_iff : (Instr.toaffine rd ra).wf = true ↔ rd.val ≤ 14 ∧ ra.val ≤ 13 := by
  simp only [Instr.wf, Bool.and_eq_true, Reg.tripleBase_iff, Reg.pairBase_iff]

theorem wf_scalarmul_iff : (Instr.scalarmul rd ra rb).wf = true ↔ rd.val ≤ 14 ∧ rb.val ≤ 14 := by
  simp only [Instr.wf, Bool.and_eq_true, Reg.pairBase_iff]

end

section

variable {i : Instr} {w zeros : Word32}

/-- The word of a command whose groups run past F15 fails the decoder's last check (R98 (d)). -/
theorem decode_encode_of_not_wf (h : i.wf ≠ true) : decode (encode i) = .error .groupBound := by
  have hrow := encode_and_rowMask i
  cases i with
  | pdbl | padd | toaffine | scalarmul =>
    simp only [rowMask, rowMatch, encode] at hrow
    simp only [decode, encode, opField_formR, rdField_formR, raField_formR, rbField_formR]
    exact (withZeros_zero (and_zeros_of_row hrow (by decide) (by decide)) _).trans (if_neg h)
  | _ => exact absurd rfl h

/-- A command out of bounds is illegal, as a word and as a command (R99, R100). -/
theorem illegal_of_not_wf (h : i.wf ≠ true) (s : State) :
    (∀ j, decode (encode i) ≠ .ok j) ∧ exec i s = .next { s with err := .illegalCommand } := by
  refine ⟨fun j hj => ?_, ?_⟩
  · rw [decode_encode_of_not_wf h] at hj
    cases hj
  · cases i with
    | pdbl | padd | toaffine | scalarmul => exact if_neg h
    | _ => exact absurd rfl h

/-- A word with `ctx = 1` has a nonzero unused field where the command does not use `ctx` (R98 (b)). -/
theorem withZeros_of_ctx_one (hw : ctxField w = 1) (hz : ctxField zeros = 1) (d : Except DecodeError Instr) :
    withZeros w zeros d = .error .nonzeroUnusedField := by
  refine if_neg fun h => ?_
  have hand : ctxField (w &&& zeros) = ctxField w &&& ctxField zeros := BitVec.extractLsb'_and
  rw [h, hw, hz] at hand
  revert hand
  decide

/-- No word of a curve opcode with `ctx = 1` is legal: these commands use bank P (R170). -/
theorem decode_curve_ctx_one {op : BitVec 8} (hop : op ∈ [0x10, 0x11, 0x12, 0x13]) (rd ra rb : Reg) (i : Instr) :
    decode (formR op rd ra rb 0 1) ≠ .ok i := by
  have herror : decode (formR op rd ra rb 0 1) = .error .nonzeroUnusedField := by
    simp only [List.mem_cons, List.not_mem_nil, or_false] at hop
    rcases hop with rfl | rfl | rfl | rfl
    all_goals
      simp only [decode, opField_formR]
      exact withZeros_of_ctx_one (ctxField_formR _ rd ra rb 0 1) (by decide) _
  rw [herror]
  exact nofun

end

/-! ### The curve commands admitted (R102, R170) -/

section

variable {s : State}

theorem exec_pdbl_of_admitted {rd ra : Reg} (hd : rd.val ≤ 13) (ha : ra.val ≤ 13) (hs : s.locked = true) :
    exec (.pdbl rd ra) s = complete { s.setTriple rd (pdbl s.ctxP s.ctxA (s.getTriple ra)) with
      inf := isZeroElem (pdbl s.ctxP s.ctxA (s.getTriple ra)).z } :=
  exec_of_admitted ((wf_pdbl_iff rd ra).mpr ⟨hd, ha⟩) (fun _ => hs) nofun nofun

theorem exec_padd_of_admitted {rd ra rb : Reg} (hd : rd.val ≤ 13) (ha : ra.val ≤ 13) (hb : rb.val ≤ 13)
    (hs : s.locked = true) :
    exec (.padd rd ra rb) s = complete { s.setTriple rd (padd s.ctxP s.ctxA (s.getTriple ra) (s.getTriple rb)) with
      inf := isZeroElem (padd s.ctxP s.ctxA (s.getTriple ra) (s.getTriple rb)).z } :=
  exec_of_admitted ((wf_padd_iff rd ra rb).mpr ⟨hd, ha, hb⟩) (fun _ => hs) nofun nofun

theorem exec_toaffine_of_admitted {rd ra : Reg} (hd : rd.val ≤ 14) (ha : ra.val ≤ 13) (hs : s.locked = true) :
    exec (.toaffine rd ra) s = complete { s.setPair rd (toaff s.ctxP (s.getTriple ra)).1 with
      inf := (toaff s.ctxP (s.getTriple ra)).2 } :=
  exec_of_admitted ((wf_toaffine_iff rd ra).mpr ⟨hd, ha⟩) (fun _ => hs) nofun nofun

theorem exec_scalarmul_of_admitted {rd rb : Reg} (ra : Reg) (hd : rd.val ≤ 14) (hb : rb.val ≤ 14)
    (hs : s.locked = true) :
    exec (.scalarmul rd ra rb) s = complete { s.setPair rd (smul s.ctxP s.ctxA (s.getF ra) (s.getPair rb)).1 with
      inf := (smul s.ctxP s.ctxA (s.getF ra) (s.getPair rb)).2 } :=
  exec_of_admitted ((wf_scalarmul_iff rd ra rb).mpr ⟨hd, hb⟩) (fun _ => hs) nofun nofun

variable {rd : Reg} {run : Host.Outcome State Fault Refusal} {inf : Bool}

/-- What a command that completes with a triple and `INF` written leaves for the commands after it. -/
theorem exists_next_of_complete_setTriple {r : Triple} (h : run = complete { s.setTriple rd r with inf := inf }) :
    ∃ t, run = .next t ∧ t.getTriple rd = r ∧ t.inf = inf ∧ t.SameConfig s :=
  ⟨_, h, State.getTriple_setTriple s rd r, rfl, rfl, rfl, rfl, rfl⟩

/-- What a command that completes with a pair and `INF` written leaves for the commands after it. -/
theorem exists_next_of_complete_setPair {q : Pair} (h : run = complete { s.setPair rd q with inf := inf }) :
    ∃ t, run = .next t ∧ t.getPair rd = q ∧ t.inf = inf ∧ t.err = .ok :=
  ⟨_, h, State.getPair_setPair s rd q, rfl, rfl⟩

end

/-! ### The steps of the curve functions, in every bank (R172, R175, R178) -/

section

variable (c : Bank) (a : Elem)

theorem pdblSteps_pdbl (t : Triple) : PdblSteps c a t (pdbl c a t) :=
  ⟨_, _, _, _, _, _, _, _, _, _, _, _, _, _, _, rfl, rfl, rfl, rfl, rfl, rfl, rfl, rfl, rfl, rfl, rfl, rfl, rfl, rfl, rfl,
    rfl, rfl, rfl⟩

/-- The steps of R175, with the selections as `padd_eq` nests them. -/
theorem paddSteps_padd (t u : Triple) : PaddSteps c a t u (padd c a t u) :=
  ⟨_, _, _, _, _, _, _, _, _, _, _, paddGeneric c t u, _, _, _, rfl, rfl, rfl, rfl, rfl, rfl, rfl, rfl, rfl, rfl, rfl, rfl,
    rfl, rfl, pdblSteps_pdbl c a t, rfl, rfl, padd_eq c a t u⟩

theorem toaffSteps_toaff (t : Triple) : ToaffSteps c t (toaff c t).1 (toaff c t).2 :=
  ⟨_, _, _, rfl, rfl, rfl, rfl, rfl⟩

@[simp] theorem fadd_zero_zero : fadd 0 0 c = 0 := by simp [fadd]

variable {c a}

/-- The double of infinity, and of a point with `Y = 0`, is infinity in every bank (R172). -/
theorem pdbl_z_eq_zero {t : Triple} (h : t.z = 0 ∨ t.y = 0) : (pdbl c a t).z = 0 := by
  have hyz : montmul t.y t.z c = 0 := by
    rcases h with h | h
    · rw [h, montmul_zero_right]
    · rw [h, montmul_zero_left]
  calc (pdbl c a t).z = fadd (montmul t.y t.z c) (montmul t.y t.z c) c := rfl
    _ = 0 := by rw [hyz, fadd_zero_zero]

theorem padd_of_left_infinity {t u : Triple} (ht : t.z = 0) : padd c a t u = u := by rw [padd_eq, if_pos ht]

theorem padd_of_right_infinity {t u : Triple} (ht : t.z ≠ 0) (hu : u.z = 0) : padd c a t u = t := by
  rw [padd_eq, if_neg ht, if_pos hu]

/-- Infinity has the sentinel as its pair, in every bank (R178). -/
theorem toaff_of_infinity {t : Triple} (h : t.z = 0) : toaff c t = ({ x := 0, y := 0 }, true) := by
  simp only [toaff, isZeroElem, h, decide_true, if_true]

end

/-! ### The point that a triple or a pair represents (R26 to R28) -/

section

variable {c : Bank} {a b : ZMod c.m.toNat} {P Q : (shortCurve c.m.toNat a b).Point}

/-- `Z = 0` says infinity (R28). -/
theorem RepTriple.z_eq_zero_iff {t : Triple} (h : RepTriple _ t P) : t.z = 0 ↔ P = 0 := by
  obtain ⟨-, h⟩ := h
  cases P with
  | zero => exact iff_of_true h rfl
  | some x y hxy =>
    obtain ⟨hz, -⟩ := h
    exact iff_of_false hz (WeierstrassCurve.Affine.Point.some_ne_zero hxy)

/-- `INF` after PDBL and PADD: the test of `Z` on a representing triple. -/
theorem RepTriple.isZeroElem_z {t : Triple} (h : RepTriple _ t P) : isZeroElem t.z = true ↔ P = 0 :=
  decide_eq_true_iff.trans h.z_eq_zero_iff

/-- A triple represents one point only: `Z²` and `Z³` cancel. -/
theorem RepTriple.point_unique (hc : c.Valid) [Fact c.m.toNat.Prime] {t : Triple} (hP : RepTriple _ t P)
    (hQ : RepTriple _ t Q) : P = Q := by
  by_cases hz : t.z = 0
  · rw [hP.z_eq_zero_iff.mp hz, hQ.z_eq_zero_iff.mp hz]
  · obtain ⟨-, -, hcan⟩ := hP.canonicalAll
    have hZ : stdVal c.m.toNat t.z ≠ 0 := mt (stdVal_eq_zero hc hcan).mp hz
    obtain ⟨-, hP⟩ := hP
    obtain ⟨-, hQ⟩ := hQ
    cases P with
    | zero => exact absurd hP hz
    | some x y hxy =>
      cases Q with
      | zero => exact absurd hQ hz
      | some x' y' hxy' =>
        obtain ⟨-, hPx, hPy⟩ := hP
        obtain ⟨-, hQx, hQy⟩ := hQ
        obtain rfl : x = x' := mul_right_cancel₀ (pow_ne_zero 2 hZ) (hPx.symm.trans hQx)
        obtain rfl : y = y' := mul_right_cancel₀ (pow_ne_zero 3 hZ) (hPy.symm.trans hQy)
        rfl

/-- The affine pair of a point is unique: a canonical register is determined by its value. -/
theorem RepPair.pair_unique (hc : c.Valid) {q r : Pair} (hq : RepPair _ q P) (hr : RepPair _ r P) : q = r := by
  obtain ⟨qx, qy⟩ := q
  obtain ⟨rx, ry⟩ := r
  obtain ⟨⟨hqx, hqy⟩, hq⟩ := hq
  obtain ⟨⟨hrx, hry⟩, hr⟩ := hr
  rw [Pair.mk.injEq]
  cases P with
  | zero =>
    obtain ⟨rfl, rfl⟩ := hq
    obtain ⟨rfl, rfl⟩ := hr
    exact ⟨rfl, rfl⟩
  | some x y hxy =>
    obtain ⟨eqx, eqy⟩ := hq
    obtain ⟨erx, ery⟩ := hr
    exact ⟨stdVal_inj hc hqx hrx (eqx.trans erx.symm), stdVal_inj hc hqy hry (eqy.trans ery.symm)⟩

/-- For distinct finite points no selection of R175 applies: were the double selected, the sum would be the double of the
first point. -/
theorem padd_eq_paddGeneric (hc : c.Valid) [Fact c.m.toNat.Prime] {aReg : Elem} (ha : stdVal _ aReg = a) {t u : Triple}
    (ht : RepTriple _ t P) (hu : RepTriple _ u Q) (hP : P ≠ 0) (hQ : Q ≠ 0) (hPQ : P ≠ Q) :
    padd c aReg t u = paddGeneric c t u := by
  have hcases := padd_eq c aReg t u
  rw [if_neg (mt ht.z_eq_zero_iff.mp hP), if_neg (mt hu.z_eq_zero_iff.mp hQ)] at hcases
  by_cases hsame : paddH c t u = 0 ∧ paddRr c t u = 0
  · rw [if_pos hsame] at hcases
    have hsum := padd_rep hc ha ht hu
    rw [hcases] at hsum
    exact absurd (add_left_cancel ((pdbl_rep hc ha ht).point_unique hc hsum)) hPQ
  · rw [hcases, if_neg hsame]

end

/-! ### PDBL (R172 to R174) -/

/-- Settles O33: the literal steps are `pdbl`, and the word is legal just in bounds and with `ctx = 0`. -/
theorem pdblWritesDouble : Obligations.PdblWritesDouble := by
  intro rd ra s
  have hwf := wf_pdbl_iff rd ra
  refine ⟨fun hd ha => decodeOfEncode (.pdbl rd ra) (hwf.mpr ⟨hd, ha⟩), fun hd ha hs => ?_,
    fun hd ha hs => exec_of_unlocked (hwf.mpr ⟨hd, ha⟩) rfl hs,
    fun hout => illegal_of_not_wf (i := .pdbl rd ra) (mt hwf.mp (by omega)) s,
    decode_curve_ctx_one (by decide) rd ra 0⟩
  exact ⟨_, rfl, pdblSteps_pdbl _ _ _, fun h => pdbl_z_eq_zero h, exec_pdbl_of_admitted hd ha hs⟩

/-- Settles O34: `pdbl_rep` for the point, `pdbl_std` for the polynomials. -/
theorem pdblRepresentsDouble : Obligations.PdblRepresentsDouble := by
  rintro p _ a b P rd ra s hd ha hs ⟨hc, rfl, -, hA, -⟩ hP
  obtain ⟨t, ht, hval, hinf, -⟩ := exists_next_of_complete_setTriple (exec_pdbl_of_admitted hd ha hs)
  have hrep := pdbl_rep hc hA hP
  refine ⟨t, ht, hval ▸ hrep, hinf ▸ hrep.isZeroElem_z, fun X Y Z M S hX hY hZ hM hS => ?_⟩
  obtain ⟨-, hpoly⟩ := pdbl_std (aReg := s.ctxA) hc hP.canonicalAll
  rw [← hval] at hpoly
  exact hpoly X Y Z a M S hX hY hZ hA.symm hM hS

/-! ### PADD (R175 to R177) -/

/-- Settles O35: the literal steps and selections are `padd`, and the word is legal just in bounds and with `ctx = 0`. -/
theorem paddWritesSum : Obligations.PaddWritesSum := by
  intro rd ra rb s
  have hwf := wf_padd_iff rd ra rb
  refine ⟨fun hd ha hb => decodeOfEncode (.padd rd ra rb) (hwf.mpr ⟨hd, ha, hb⟩), fun hd ha hb hs => ?_,
    fun hd ha hb hs => exec_of_unlocked (hwf.mpr ⟨hd, ha, hb⟩) rfl hs,
    fun hout => illegal_of_not_wf (i := .padd rd ra rb) (mt hwf.mp (by omega)) s,
    decode_curve_ctx_one (by decide) rd ra rb⟩
  exact ⟨_, rfl, paddSteps_padd _ _ _ _, exec_padd_of_admitted hd ha hb hs⟩

/-- Settles O36: the last selection takes the second operand, the one before it the first. -/
theorem paddInfinityIsIdentity : Obligations.PaddInfinityIsIdentity := by
  intro rd ra rb s hd ha hb hs
  obtain ⟨t, ht, hval, hinf, -⟩ := exists_next_of_complete_setTriple (exec_padd_of_admitted hd ha hb hs)
  constructor
  · intro hzb hza
    rw [padd_of_right_infinity hza hzb] at hval hinf
    exact ⟨t, ht, hval, hinf.trans (decide_eq_false hza)⟩
  · intro hza
    rw [padd_of_left_infinity hza] at hval hinf
    exact ⟨t, ht, hval, hinf⟩

/-- Settles O37: `padd_rep` for the point; for distinct finite points `padd` is the generic sum, whose polynomials are
those of `paddGeneric_std` in the `H` and `Rr` of `paddHR_std`. -/
theorem paddRepresentsSum : Obligations.PaddRepresentsSum := by
  rintro p _ a b P Q rd ra rb s hd ha hb hs ⟨hc, rfl, -, hA, -⟩ hP hQ
  obtain ⟨t, ht, hval, hinf, -⟩ := exists_next_of_complete_setTriple (exec_padd_of_admitted hd ha hb hs)
  have hrep := padd_rep hc hA hP hQ
  refine ⟨t, ht, hval ▸ hrep, hinf ▸ hrep.isZeroElem_z, fun hP0 hQ0 hPQ => ?_⟩
  rw [padd_eq_paddGeneric hc hA hP hQ hP0 hQ0 hPQ] at hval
  obtain ⟨⟨-, hH⟩, -, hR⟩ := paddHR_std hc hP.canonicalAll hQ.canonicalAll
  obtain ⟨-, hpoly⟩ := paddGeneric_std hc hP.canonicalAll hQ.canonicalAll
  rw [← hval] at hpoly
  rintro X1 Y1 Z1 X2 Y2 Z2 U S H R rfl rfl rfl rfl rfl rfl rfl rfl rfl rfl
  exact hpoly _ _ _ _ hH.symm hR.symm rfl rfl

/-! ### TOAFFINE (R178 to R180) -/

/-- Settles O39: the literal steps are `toaff`, and the word is legal just in bounds and with `ctx = 0`. -/
theorem toaffineWritesPair : Obligations.ToaffineWritesPair := by
  intro rd ra s
  have hwf := wf_toaffine_iff rd ra
  refine ⟨fun hd ha => decodeOfEncode (.toaffine rd ra) (hwf.mpr ⟨hd, ha⟩), fun hd ha hs => ?_,
    fun hd ha hs => exec_of_unlocked (hwf.mpr ⟨hd, ha⟩) rfl hs,
    fun hout => illegal_of_not_wf (i := .toaffine rd ra) (mt hwf.mp (by omega)) s,
    decode_curve_ctx_one (by decide) rd ra 0⟩
  refine ⟨_, rfl, toaffSteps_toaff _ _, fun hz => ?_, exec_toaffine_of_admitted hd ha hs⟩
  rw [toaff_of_infinity hz]
  exact ⟨rfl, rfl⟩

/-- Settles O40: `toaff_rep` on the source triple. -/
theorem toaffineGivesAffinePoint : Obligations.ToaffineGivesAffinePoint := by
  rintro p _ a b P rd ra s hd ha hs ⟨hc, rfl, -⟩ hP
  obtain ⟨t, ht, hval, hinf, -⟩ := exists_next_of_complete_setPair (exec_toaffine_of_admitted hd ha hs)
  refine ⟨t, ht, ?_⟩
  rw [hval, hinf]
  exact toaff_rep hc hP

/-- Settles O38: both orders leave a triple of the same point, and the pair and `INF` that TOAFFINE makes of a triple are
determined by its point. -/
theorem paddCommutesAfterToaffine : Obligations.PaddCommutesAfterToaffine := by
  rintro p _ a b P Q rd ra rb re s hd ha hb he hs ⟨hc, rfl, -, hA, -⟩ hP hQ
  obtain ⟨t, ht, hval, -, hconfig⟩ := exists_next_of_complete_setTriple (exec_padd_of_admitted hd ha hb hs)
  obtain ⟨t', ht', hval', -, hconfig'⟩ := exists_next_of_complete_setTriple (exec_padd_of_admitted hd hb ha hs)
  obtain ⟨u, hu, hpair, hinf, -⟩ :=
    exists_next_of_complete_setPair (exec_toaffine_of_admitted he hd (hconfig.1.trans hs))
  obtain ⟨u', hu', hpair', hinf', -⟩ :=
    exists_next_of_complete_setPair (exec_toaffine_of_admitted he hd (hconfig'.1.trans hs))
  have hsum' := padd_rep hc hA hQ hP
  rw [add_comm] at hsum'
  obtain ⟨hrep, hzero⟩ := toaff_rep hc (padd_rep hc hA hP hQ)
  obtain ⟨hrep', hzero'⟩ := toaff_rep hc hsum'
  rw [hval, show t.ctxP = s.ctxP from hconfig.bank_eq .p] at hpair hinf
  rw [hval', show t'.ctxP = s.ctxP from hconfig'.bank_eq .p] at hpair' hinf'
  refine ⟨t, t', u, u', ht, ht', hu, hu', ?_, ?_⟩
  · rw [hpair, hpair']
    exact hrep.pair_unique hc hrep'
  · rw [hinf, hinf', Bool.eq_iff_iff]
    exact hzero.trans hzero'.symm

/-! ### The ladder (R181) -/

section

variable (c : Bank) (a k : Elem) (q : Pair)

/-- The base pair as R181 converts it. -/
theorem smulBase_eq :
    smulBase c q = { x := q.x, y := q.y, z := if q.x = 0 ∧ q.y = 0 then 0 else montOne c } := by
  simp only [smulBase, isZeroElem, Bool.and_eq_true, decide_eq_true_eq]

/-- The ladder's accumulator after `j` iterations, the most significant bits first (R181). -/
def smulAcc : Nat → Triple
  | 0 => { x := 0, y := 0, z := 0 }
  | j + 1 =>
    if k.getLsbD (255 - j) = true then padd c a (pdbl c a (smulAcc j)) (smulBase c q) else pdbl c a (smulAcc j)

/-- The iterations that remain after `j` of them, and `toaff`, end in `smul`. -/
theorem toaff_smulLoop_smulAcc {j : Nat} (hj : j ≤ 256) :
    toaff c (smulLoop c a k (smulBase c q) (256 - j) (smulAcc c a k q j)) = smul c a k q := by
  induction j with
  | zero => rfl
  | succ j ih =>
    have hbits : 256 - j = 255 - j + 1 := by omega
    rw [← ih (by omega), hbits, smulLoop_succ, smulAcc, Nat.succ_sub_succ]

end

/-- Settles O42: `smulAcc` is the accumulator, and no iteration remains after 256. -/
theorem smulFollowsLadder : Obligations.SmulFollowsLadder :=
  fun c a k q => ⟨smulAcc c a k q, smulBase c q, smulBase_eq c q, rfl, fun _ _ => rfl,
    (toaff_smulLoop_smulAcc c a k q le_rfl).symm⟩

/-! ### The ladder's corner cases (R182) -/

section

variable {c : Bank} {a k : Elem} {q acc : Triple}

/-- From infinity the ladder stays at infinity when it adds infinity only, or nothing. -/
theorem smulLoop_z_eq_zero (h : k = 0 ∨ q.z = 0) (hacc : acc.z = 0) (n : Nat) : (smulLoop c a k q n acc).z = 0 := by
  induction n generalizing acc with
  | zero => exact hacc
  | succ n ih =>
    have hdouble : (pdbl c a acc).z = 0 := pdbl_z_eq_zero (.inl hacc)
    rw [smulLoop_succ]
    refine ih ?_
    split
    case isFalse => exact hdouble
    case isTrue hbit =>
      rw [padd_of_left_infinity hdouble]
      exact h.resolve_left fun h0 => by simp [h0] at hbit

/-- From infinity the ladder with the scalar 1 adds its base once, in the last iteration. -/
theorem smulLoop_one (hacc : acc.z = 0) (n : Nat) : smulLoop c a 1 q (n + 1) acc = q := by
  have hdouble {acc : Triple} (hacc : acc.z = 0) : (pdbl c a acc).z = 0 := pdbl_z_eq_zero (.inl hacc)
  induction n generalizing acc with
  | zero =>
    rw [smulLoop_succ, if_pos (by decide)]
    exact padd_of_left_infinity (hdouble hacc)
  | succ n ih =>
    have hbit : (1 : Elem).getLsbD (n + 1) = false := by simp
    rw [smulLoop_succ, hbit, if_neg Bool.false_ne_true]
    exact ih (hdouble hacc)

theorem smul_of_infinity {q : Pair} (h : k = 0 ∨ (q.x = 0 ∧ q.y = 0)) : smul c a k q = ({ x := 0, y := 0 }, true) := by
  have hbase : k = 0 ∨ (smulBase c q).z = 0 := h.imp_right fun h0 => by rw [smulBase_eq, if_pos h0]
  exact toaff_of_infinity (smulLoop_z_eq_zero hbase rfl 256)

theorem smul_one (q : Pair) : smul c a 1 q = toaff c (smulBase c q) := congrArg (toaff c) (smulLoop_one rfl 255)

theorem montOne_ne_zero (hc : c.Valid) : montOne c ≠ 0 := by
  obtain ⟨-, h3, -⟩ := id hc
  rw [montOne_eq_montForm hc]
  exact montForm_ne_zero (y := 1) hc (Nat.mod_eq_of_lt (by omega))

/-- `one(c)` is its own inverse, for every valid modulus, prime or not (R154). -/
theorem finv_montOne (hc : c.Valid) : finv (montOne c) c = montOne c := by
  obtain ⟨hone, eone⟩ := montOne_std hc
  obtain ⟨h, e⟩ := finv_std hc hone
  exact stdVal_inj hc h hone (by rw [e, eone, one_pow])

/-- A canonical pair, converted to a triple and back, is itself (R178, R181). -/
theorem toaff_smulBase (hc : c.Valid) {q : Pair} (hx : Canonical c q.x) (hy : Canonical c q.y) :
    toaff c (smulBase c q) = (q, decide (q.x = 0 ∧ q.y = 0)) := by
  rw [smulBase_eq]
  obtain ⟨x, y⟩ := q
  by_cases h0 : x = 0 ∧ y = 0
  · rw [toaff_of_infinity (if_pos h0), decide_eq_true h0]
    obtain ⟨rfl, rfl⟩ := h0
    rfl
  · obtain ⟨hone, -⟩ := montOne_std hc
    simp only [if_neg h0, decide_eq_false h0, toaff, isZeroElem, finv_montOne hc, montmul_montOne hc hone,
      montmul_montOne hc hx, montmul_montOne hc hy, decide_eq_false (montOne_ne_zero hc), Bool.false_eq_true, if_false]

end

/-! ### SCALARMUL (R182, R183) -/

/-- Settles O41: the word is legal just in bounds and with `ctx = 0`. -/
theorem scalarmulWritesPair : Obligations.ScalarmulWritesPair := by
  intro rd ra rb s
  have hwf := wf_scalarmul_iff rd ra rb
  exact ⟨fun hd hb => decodeOfEncode (.scalarmul rd ra rb) (hwf.mpr ⟨hd, hb⟩),
    fun hd hb hs => ⟨_, rfl, exec_scalarmul_of_admitted ra hd hb hs⟩,
    fun hd hb hs => exec_of_unlocked (hwf.mpr ⟨hd, hb⟩) rfl hs,
    fun hout => illegal_of_not_wf (i := .scalarmul rd ra rb) (mt hwf.mp (by omega)) s,
    decode_curve_ctx_one (by decide) rd ra rb⟩

/-- Settles O43: `smul_rep` on the base pair. -/
theorem scalarmulComputesMultiple : Obligations.ScalarmulComputesMultiple := by
  rintro p _ a b P rd ra rb s hd hb hs ⟨hc, rfl, -, hA, hb0⟩ hP
  obtain ⟨t, ht, hval, hinf, -⟩ := exists_next_of_complete_setPair (exec_scalarmul_of_admitted ra hd hb hs)
  refine ⟨t, ht, ?_⟩
  rw [hval, hinf]
  exact smul_rep hc hb0 hA _ hP

/-- Settles O44: the ladder never leaves infinity, or it adds the base once. -/
theorem scalarmulCornerCases : Obligations.ScalarmulCornerCases := by
  intro rd ra rb s hd hb hs
  obtain ⟨t, ht, hval, hinf, herr⟩ := exists_next_of_complete_setPair (exec_scalarmul_of_admitted ra hd hb hs)
  constructor
  · intro h
    rw [smul_of_infinity h] at hval hinf
    exact ⟨t, ht, congrArg Pair.x hval, congrArg Pair.y hval, hinf, herr⟩
  · intro hc hx hy hk
    rw [hk, smul_one, toaff_smulBase hc hx hy] at hval hinf
    exact ⟨t, ht, congrArg Pair.x hval, congrArg Pair.y hval, hinf ▸ decide_eq_true_iff⟩

end Sys2Proof.Machine

/-! # Proofs of the family of the system commands (spec/43_system.md)

The plan: each system command is one word, and its next state is `exec`'s by evaluation. What is left is NOP's one legal
word (`eq_nop_word_of_decode`), and what a locked engine no longer does: it ignores a write to a context offset
(`hostWrite_contextOffset_of_locked`), and no command ends with `NotConfigured`
(`runCommand_err_ne_notConfigured_of_locked`). -/

namespace Sys2Proof

/-- The only legal word with NOP's opcode is NOP's (R96, R200). -/
theorem eq_nop_word_of_decode {w : Word32} {i : Instr} (hop : opField w = 0) (h : decode w = .ok i) : w = 0 := by
  have hopNat : (opField w).toNat = 0 := congrArg BitVec.toNat hop
  have hzeros : decode w = withZeros w 0x00FFFFFF (.ok .nop) := by simp only [decode, hopNat]
  obtain ⟨-, hnop⟩ := withZeros_ok (hzeros.symm.trans h)
  obtain rfl := Except.ok.inj hnop
  obtain ⟨-, hw⟩ := encodeOfDecode w .nop h
  exact hw.symm

end Sys2Proof

namespace Sys2Proof.Machine

open Sys2Proof Sys2Proof.Spec

/-! ### A locked engine (R41, R101, R201) -/

section

variable {s : State} (hs : s.locked = true)

include hs

/-- A host write to a context offset stores nothing, so it is ignored, and no error is recorded. -/
theorem hostWrite_contextOffset_of_locked {off : Nat} (ha : off % 4 = 0) (hoff : ContextOffset off) (v : Word32) :
    hostWrite off v s = .next s := by
  have ⟨hlo, hhi, _⟩ := hoff
  have hat : (portReg off).IsAt off := portReg_isAt ha (by omega)
  have hcmd : portReg off ≠ .cmd := by
    intro h
    rw [h] at hat
    exact absurd (hlo.trans_eq hat) (by decide)
  have hstores : ¬ (portReg off).Stores s := by
    rw [stores_iff_storedOffset hat, storedOffset_iff_of_contextOffset hoff, hs]
    exact nofun
  rw [hostWrite_of_portReg_ne_cmd hcmd, writeReg_of_not_stores hstores]

/-- `NotConfigured` is the code of a context command while unlocked only. -/
theorem resultCode_ne_notConfigured_of_locked (w : Word32) : resultCode w s ≠ .notConfigured := by
  have hadmitted : ∀ i, ¬ (usesContext i = true ∧ s.locked = false) :=
    fun _ ⟨_, hunlocked⟩ => absurd (hs.symm.trans hunlocked) nofun
  unfold resultCode
  split
  · exact nofun
  · rw [if_neg (hadmitted _)]
    split
    · split <;> exact nofun
    · split <;> exact nofun
    · exact nofun

/-- No command is turned away as not configured (R101). -/
theorem runCommand_err_ne_notConfigured_of_locked {w : Word32} {t : State} (h : runCommand w s = .next t) :
    t.err ≠ .notConfigured := by
  obtain ⟨u, hu, herr⟩ := everyCommandWritesErr w s
  obtain rfl := Host.Outcome.next.inj (hu.symm.trans h)
  rw [herr]
  exact resultCode_ne_notConfigured_of_locked hs w

end

/-! ### NOP, LOCK and ZEROIZE (R200 to R202) -/

/-- Settles O45: a word with opcode 0 that decodes is NOP's own. -/
theorem nopOnlyClearsErr : Obligations.NopOnlyClearsErr :=
  ⟨decodeOfEncode .nop rfl, fun _ hop hne _ h => hne (eq_nop_word_of_decode hop h), fun _ => rfl⟩

/-- Settles O46: the state LOCK leaves is locked, so the rules of a locked engine hold in it; its `STATUS` is bit 0. -/
theorem lockFreezesContexts : Obligations.LockFreezesContexts := by
  refine ⟨decodeOfEncode .lock rfl, fun s => ⟨_, rfl, rfl, ?_,
    fun _ v ha hoff => hostWrite_contextOffset_of_locked rfl ha hoff v,
    fun _ _ h => runCommand_err_ne_notConfigured_of_locked rfl h, fun hs => ?_⟩⟩
  · rw [hostRead_of_isAt (r := .status) rfl]
    exact BitVec.eq_of_toNat_eq (statusWord_toNat _)
  · calc exec .lock s
        = .next { s with locked := true, err := .ok } := rfl
      _ = .next { s with err := .ok } := by rw [← hs]

/-- Settles O47: the state ZEROIZE leaves has the registers, flags and buffer of the reset state, which are 0, and a
second ZEROIZE writes the same values again. -/
theorem zeroizeClearsAllButConfiguration : Obligations.ZeroizeClearsAllButConfiguration :=
  ⟨decodeOfEncode .zeroize rfl, fun s => ⟨{ effect .zeroize s with err := .ok }, rfl, State.reset_getF, rfl, rfl, rfl,
    rfl, State.reset_dbuf, rfl, rfl, rfl⟩⟩

end Sys2Proof.Machine

/-! # Proofs of the family of the exceptions (spec/60_exceptions.md)

The plan: MFCE raises nothing, so a statement about its exceptions is one about the result code of a command and about
the next state of every access. `hostAction_cases` says once what an access can do; what a command does to `ERR` is
`everyCommandWritesErr`, and what it leaves behind is `commandResult_of_exec`. -/

namespace Sys2Proof.Machine

open Sys2Proof Sys2Proof.Spec

/-! ### What an access can do -/

section

variable {a : HostAction} {s t : State}

/-- All that `hostAction` can do when it answers a next state. -/
theorem hostAction_cases (h : hostAction a s = .next t) :
    (∃ v, t = { s with replies := v :: s.replies }) ∨ (∃ w, runCommand w s = .next t) ∨
      (∃ r v, t = writeReg r v s) ∨ t = s.afterReset := by
  cases a with
  | read bits off =>
    obtain ⟨-, -, -, hrun⟩ := whenAccepted_next h
    exact .inl ⟨_, (Host.Outcome.next.inj hrun).symm⟩
  | write bits off v =>
    obtain ⟨-, -, -, hrun⟩ := whenAccepted_next h
    obtain hcmd | hreg := hostWrite_cases hrun
    · exact .inr (.inl ⟨v, hcmd⟩)
    · exact .inr (.inr (.inl ⟨_, v, hreg⟩))
  | reset => exact .inr (.inr (.inr (Host.Outcome.next.inj h).symm))

/-- A part of the state that the guarded write leaves is left by the guard too. -/
theorem apply_whileUnlocked {α : Type} (part : State → α) (h : part t = part s) :
    part (whileUnlocked s t) = part s := by
  unfold whileUnlocked
  split
  · rfl
  · exact h

/-- No host write but one to `CMD` changes `ERR` (R36, R63). -/
@[simp] theorem writeReg_err (r : PortReg) (v : Word32) (s : State) : (writeReg r v s).err = s.err := by
  cases r with
  | ctxM c | ctxR2 c | ctxM0inv c => exact apply_whileUnlocked State.err (State.setBank_err s c _)
  | ctxA => exact apply_whileUnlocked State.err rfl
  | cmd | status | flags | dbuf | freg | reserved => rfl

@[simp] theorem writeReg_pending (r : PortReg) (v : Word32) (s : State) : (writeReg r v s).pending = s.pending := by
  cases r with
  | ctxM c | ctxR2 c | ctxM0inv c => exact apply_whileUnlocked State.pending (State.setBank_pending s c _)
  | ctxA => exact apply_whileUnlocked State.pending rfl
  | cmd | status | flags | dbuf | freg | reserved => rfl

end

/-! ### The result codes that MFCE writes (R211 to R213) -/

section

variable {a : HostAction} {s t : State} {w : Word32}

/-- None of the causes of R212 is a cause of code 3 or 4. -/
theorem resultCode_produced (w : Word32) (s : State) :
    resultCode w s ≠ .verifierMismatch ∧ resultCode w s ≠ .resourceFailure := by
  unfold resultCode
  split
  case h_1 => exact ⟨nofun, nofun⟩
  case h_2 i _ =>
    split
    · exact ⟨nofun, nofun⟩
    · cases i with
      | frombytes | finv => dsimp only; split <;> exact ⟨nofun, nofun⟩
      | _ => exact ⟨nofun, nofun⟩

theorem State.ErrProduced.of_err_eq (h : t.err = s.err) (hs : s.ErrProduced) : t.ErrProduced := by
  unfold State.ErrProduced
  rwa [h]

/-- A command leaves a code that MFCE writes, whatever code stood before. -/
theorem runCommand_errProduced (h : runCommand w s = .next t) : t.ErrProduced := by
  obtain ⟨u, hu, herr⟩ := everyCommandWritesErr w s
  obtain rfl := Host.Outcome.next.inj (hu.symm.trans h)
  unfold State.ErrProduced
  rw [herr]
  exact resultCode_produced w s

theorem hostAction_errProduced (hs : s.ErrProduced) (h : hostAction a s = .next t) : t.ErrProduced := by
  obtain ⟨v, rfl⟩ | ⟨w, hcmd⟩ | ⟨r, v, rfl⟩ | rfl := hostAction_cases h
  · exact hs.of_err_eq rfl
  · exact runCommand_errProduced hcmd
  · exact hs.of_err_eq (writeReg_err r v s)
  · exact resetErrProduced.of_err_eq rfl

end

/-- Settles O55: an idle step changes nothing; an access either runs a command, resets the engine, or leaves `ERR`. -/
theorem stepKeepsErrProduced : Obligations.StepKeepsErrProduced := by
  intro s t hs h
  cases hp : s.pending with
  | nil =>
    rw [step_of_pending_nil hp] at h
    exact Host.Outcome.next.inj h ▸ hs
  | cons a rest =>
    rw [step_of_pending_cons hp] at h
    have hpop : State.ErrProduced { s with pending := rest } := hs.of_err_eq rfl
    exact hostAction_errProduced hpop h

/-! ### The state after a failure (R210, R214) -/

/-- FINV ends with `CurveOperationFailure` only when it is admitted and its operand is zero (R155, R212). -/
theorem locked_and_zero_of_finv_failure {rd ra : Reg} {ctx : Ctx} {s t : State} (h : exec (.finv rd ra ctx) s = .next t)
    (herr : t.err = .curveOperationFailure) : s.locked = true ∧ s.getF ra = 0 := by
  obtain ⟨hlocked, -⟩ | ⟨-, rfl⟩ := whenLocked_cases h
  · refine ⟨hlocked, by_contra fun hne => ?_⟩
    rw [exec_finv_of_ne_zero hlocked hne, complete_eq] at h
    obtain rfl := Host.Outcome.next.inj h
    cases herr
  · cases herr

/-- Settles O9: a command that does not complete changes `ERR` only, or is FINV, which has no inverse for a zero operand
only. -/
theorem failureLeavesState : Obligations.FailureLeavesState := by
  intro i s t h herr
  cases commandResult_of_exec h with
  | completed => exact absurd rfl herr
  | failed => exact .inl rfl
  | noInverse rd ra ctx hi =>
    subst hi
    obtain ⟨hlocked, hzero⟩ := locked_and_zero_of_finv_failure h rfl
    exact .inr ⟨rd, ra, ctx, rfl, hlocked, hzero, rfl⟩

/-! ### A run of accepted accesses (R61, R210, R259) -/

section

variable {a : HostAction} {s t : State} {w : Word32} {rest : List HostAction}

theorem runCommand_pending (h : runCommand w s = .next t) : t.pending = s.pending := by
  obtain ⟨i, -, hexec⟩ | rfl := runCommand_cases h
  · obtain ⟨-, -, -, -, -, -, hpending, -⟩ := commandFrame i s t hexec
    exact hpending
  · rfl

/-- No access changes the host's accesses still to come. -/
theorem hostAction_pending (h : hostAction a s = .next t) : t.pending = s.pending := by
  obtain ⟨v, rfl⟩ | ⟨w, hcmd⟩ | ⟨r, v, rfl⟩ | rfl := hostAction_cases h
  · rfl
  · exact runCommand_pending hcmd
  · exact writeReg_pending r v s
  · exact State.afterReset_pending s

theorem exists_next_hostAction (ha : a.Accepted) (s : State) : ∃ t, hostAction a s = .next t := by
  cases a with
  | read bits off =>
    obtain ⟨hbits, halign, hwindow⟩ := ha
    exact ⟨_, whenAccepted_accepted hbits halign hwindow _⟩
  | write bits off v =>
    obtain ⟨hbits, halign, hwindow⟩ := ha
    obtain ⟨t, ht⟩ := exists_next_hostWrite off v s
    exact ⟨t, (whenAccepted_accepted hbits halign hwindow _).trans ht⟩
  | reset => exact ⟨_, rfl⟩

/-- A step performs an accepted access and takes it off the list. -/
theorem exists_next_step (hp : s.pending = a :: rest) (ha : a.Accepted) :
    ∃ t, step s = .next t ∧ t.pending = rest := by
  obtain ⟨t, ht⟩ := exists_next_hostAction ha { s with pending := rest }
  exact ⟨t, (step_of_pending_cons hp).trans ht, hostAction_pending ht⟩

theorem run_succ_of_step (h : step s = .next t) (n : Nat) :
    Host.Core.run Sys2Proof.core (n + 1) s = Host.Core.run Sys2Proof.core n t := by
  have hcore : Sys2Proof.core.step s = .next t := h
  simp only [Host.Core.run, hcore]

end

/-- Settles O60, by induction on the list of accesses: each step performs the first one. -/
theorem acceptedRunCompletes : Obligations.AcceptedRunCompletes := by
  intro s hacc
  induction hp : s.pending generalizing s with
  | nil => exact ⟨s, rfl, hp⟩
  | cons a rest ih =>
    rw [hp] at hacc
    obtain ⟨ha, hrest⟩ := List.forall_mem_cons.mp hacc
    obtain ⟨t, hstep, ht⟩ := exists_next_step hp ha
    obtain ⟨u, hrun, hidle⟩ := ih t (ht.symm ▸ hrest) ht
    exact ⟨u, (run_succ_of_step hstep rest.length).trans hrun, hidle⟩

end Sys2Proof.Machine

/-! # Proofs of the family of reset (spec/70_reset_and_hazards.md)

`Reset` is one of the host's actions. The port accepts it in every state, and what it leaves depends on the state before
it only through the two fields of the host. -/

namespace Sys2Proof.Machine

open Sys2Proof

/-! ### The `Reset` action (R240, R241) -/

/-- The port refuses no `Reset`: neither a lock nor a result code holds it back (R241). -/
theorem hostAction_reset (s : State) : hostAction .reset s = .next s.afterReset := rfl

/-- What the engine held before a `Reset` does not matter: of the state that takes the action off the list, only the
rest of the list and the replies remain (R240). -/
theorem State.afterReset_of_pop (s : State) (rest : List HostAction) :
    State.afterReset { s with pending := rest } = { State.reset with pending := rest, replies := s.replies } := rfl

/-- Settles O54: the step takes the `Reset` off the list and performs it. -/
theorem resetActionResetsEngine : Obligations.ResetActionResetsEngine := by
  intro s rest hp
  calc step s
      = hostAction .reset { s with pending := rest } := step_of_pending_cons hp
    _ = .next (State.afterReset { s with pending := rest }) := hostAction_reset _
    _ = .next { State.reset with pending := rest, replies := s.replies } := by rw [State.afterReset_of_pop]

end Sys2Proof.Machine
